-- ==== Sys2Proof/Word.lean ====
section
/-! DEFINITION. The 32-bit word and its two readings (00_scope.md R7, R8). -/

namespace Sys2Proof

/-- A register value or a memory word: a 32-bit pattern (R8). -/
abbrev Word := BitVec 32

/-- `signed(p)` of R8: the two's-complement number a pattern stands for. -/
abbrev signed (p : Word) : Int := p.toInt

/-- `wrap32(n)` of R8: the pattern congruent to `n` modulo 2^32. -/
abbrev wrap32 (n : Int) : Word := BitVec.ofInt 32 n

end Sys2Proof
end

