-- ==== Sys2Proof/Config.lean ====
section
/-! DEFINITION. The parameters of the hardware that the spec leaves to the model as data (00_scope.md R6):
OPCODE_MAP, DECODE_UPPER_BITS and MAX_STEPS. Their values in this spec's configuration are `Config.spec`, in Decode.lean.
HAS_DIV (R6, D14) is false and has no field: no division instruction exists to switch on. -/

namespace Sys2Proof

/-- `MEMWORDS` of R6: the number of memory words. -/
def memWords : Nat := 65536

/-- The eight mnemonics of R2. -/
inductive Mnemonic where
  | add | nand | lw | sw | beq | jalr | halt | noop
  deriving DecidableEq, Repr

/-- The four formats of R43: "register-only, immediate-offset, jump-register, and operand-less". -/
inductive Format where
  | R | I | J | O
  deriving DecidableEq, Repr

/-- `OPCODE_MAP` of R6 and R50, as data: pairs of a 3-bit opcode value and the mnemonic it stands for (D1). -/
abbrev OpcodeMap := List (BitVec 3 × Mnemonic)

/-- `DECODE_UPPER_BITS` of R6 and R53: what the decoder does with word bits 31 to 25 (D2). -/
inductive UpperBits where
  /-- the decoder does not examine them -/
  | ignore
  /-- any of them set raises `UnknownOpcodeAtRuntime` -/
  | fault
  deriving DecidableEq, Repr

/-- The parameters no step changes (R27). -/
structure Config where
  /-- `OPCODE_MAP` (R50) -/
  opcodeMap : OpcodeMap
  /-- `DECODE_UPPER_BITS` (R53) -/
  upperBits : UpperBits
  /-- `MAX_STEPS` (R98): absent, or a positive integer -/
  maxSteps  : Option Nat
  deriving DecidableEq, Repr

end Sys2Proof
end

