-- ==== Sys2Proof/Syntax.lean ====
section
/-! DEFINITION. The decoded instructions: one constructor per row of spec/opcode_table.json (30_encoding.md R50, R52). -/

namespace Sys2Proof

/-- A register number: a 3-bit field "used directly as the index of the register" (R49). -/
abbrev RegNum := Fin 8

/-- The eight instructions, operands in the order of R52. An offset is the signed number `sext_32` gives (R48). -/
inductive Instr where
  | add  (regA regB destReg : RegNum)
  | nand (regA regB destReg : RegNum)
  | lw   (regA regB : RegNum) (offset : Int)
  | sw   (regA regB : RegNum) (offset : Int)
  | beq  (regA regB : RegNum) (offset : Int)
  | jalr (regA regB : RegNum)
  | halt
  | noop
  deriving DecidableEq, Repr

end Sys2Proof
end

