-- ==== Sys2Proof/WellFormed.lean ====
section
/-! DEFINITION. Which instruction terms have an encoding: an offset must fit 16 signed bits (30_encoding.md R48, R65).
A register number needs no check: every 3-bit value is valid (R49), and `RegNum` holds no other. -/

namespace Sys2Proof

/-- "fits signed 16 bits" (R48, R65): -32768 to 32767. -/
abbrev OffsetFits (v : Int) : Prop := -32768 ≤ v ∧ v ≤ 32767

/-- An instruction that some word encodes. -/
def Instr.wellFormed (i : Instr) : Bool :=
  match i with
  | .add _ _ _ => true
  | .nand _ _ _ => true
  | .lw _ _ offset => decide (OffsetFits offset)
  | .sw _ _ offset => decide (OffsetFits offset)
  | .beq _ _ offset => decide (OffsetFits offset)
  | .jalr _ _ => true
  | .halt => true
  | .noop => true

end Sys2Proof
end

