-- ==== Sys2Proof/Decode.lean ====
section
/-! DEFINITION. The opcode table, the decoder and the encoder (30_encoding.md R43 to R57, R64 to R66).
The configuration's values stand here rather than in Config.lean so that a repair of the opcode table stays possible. -/

namespace Sys2Proof

/-! ### The opcode table (R50, R51) -/

/-- `OPCODE_MAP` of R50: the mnemonics in the source's listing order, numbered from 0.
UNVERIFIED: the spec's own decision D1, from general knowledge (notes/assumptions/1.md). -/
def specOpcodeMap : OpcodeMap :=
  [(0, .add), (1, .nand), (2, .lw), (3, .sw), (4, .beq), (5, .jalr), (6, .halt), (7, .noop)]

/-- This spec's configuration (R6): the table of R50, `ignore` (D2), and no step limit, the value R98 and D10
recommend for a model of the ISA. -/
def Config.spec : Config := { opcodeMap := specOpcodeMap, upperBits := .ignore, maxSteps := none }

/-- The format each mnemonic has (R45, R46, R47, R50). -/
def Mnemonic.format (m : Mnemonic) : Format :=
  match m with
  | .add => .R
  | .nand => .R
  | .lw => .I
  | .sw => .I
  | .beq => .I
  | .jalr => .J
  | .halt => .O
  | .noop => .O

/-- "Given an opcode value (3 bits extracted from a word)", the mnemonic it stands for (R51). -/
def OpcodeMap.mnemonicOf (map : OpcodeMap) (op : BitVec 3) : Option Mnemonic :=
  match map with
  | [] => none
  | (o, m) :: rest => if o = op then some m else OpcodeMap.mnemonicOf rest op

/-- "Given a mnemonic, return its opcode value", or nothing for an unknown one (R51). -/
def OpcodeMap.opcodeOf (map : OpcodeMap) (m : Mnemonic) : Option (BitVec 3) :=
  match map with
  | [] => none
  | (o, m') :: rest => if m' = m then some o else OpcodeMap.opcodeOf rest m

/-- "return the format tag needed to decode the rest of the word" (R51). -/
def OpcodeMap.formatOf (map : OpcodeMap) (op : BitVec 3) : Option Format :=
  (map.mnemonicOf op).map Mnemonic.format

/-- A table that is one-to-one ("the single source of truth shared by encode and decode paths", R51), and a limit that is
"a positive integer" where it is present (R98). -/
def Config.wf (c : Config) : Bool :=
  decide ((c.opcodeMap.map Prod.fst).Nodup) && decide ((c.opcodeMap.map Prod.snd).Nodup) &&
    (match c.maxSteps with | none => true | some n => decide (0 < n))

/-! ### The fields of a word (R44 to R48) -/

/-- `w[24:22]` (R44). -/
def opcodeField (w : Word) : BitVec 3 := w.extractLsb' 22 3

/-- `regA = w[21:19]` (R44). -/
def regAField (w : Word) : RegNum := (w.extractLsb' 19 3).toFin

/-- `regB = w[18:16]` (R44). -/
def regBField (w : Word) : RegNum := (w.extractLsb' 16 3).toFin

/-- `destReg = w[2:0]` of the R-format (R45). -/
def destRegField (w : Word) : RegNum := (w.extractLsb' 0 3).toFin

/-- `offset = w[15:0]` of the I-format (R46). -/
def offsetField (w : Word) : BitVec 16 := w.extractLsb' 0 16

/-- `w[31:25]`, outside the instruction (R43, R53). -/
def upperBitsField (w : Word) : BitVec 7 := w.extractLsb' 25 7

/-- `sext_32` of R48: "reinterpreted as signed by subtracting 65536 when bit 15 is set". -/
def signExtend16 (v : BitVec 16) : Int :=
  if v.getLsbD 15 then (v.toNat : Int) - 65536 else (v.toNat : Int)

/-! ### The decoder (R52) -/

/-- Why the decoder rejects a word. -/
inductive DecodeError where
  /-- "an opcode value with no defined rule" (R56); `op` is the value computed -/
  | unknownOpcode (op : Int)
  deriving DecidableEq, Repr

/-- The operands of R52's case for each mnemonic. -/
def decodeFields (m : Mnemonic) (w : Word) : Instr :=
  match m with
  | .add => .add (regAField w) (regBField w) (destRegField w)
  | .nand => .nand (regAField w) (regBField w) (destRegField w)
  | .lw => .lw (regAField w) (regBField w) (signExtend16 (offsetField w))
  | .sw => .sw (regAField w) (regBField w) (signExtend16 (offsetField w))
  | .beq => .beq (regAField w) (regBField w) (signExtend16 (offsetField w))
  | .jalr => .jalr (regAField w) (regBField w)
  | .halt => .halt
  | .noop => .noop

/-- The opcode an unmasked decode computes: "the full arithmetic shift" of the word by 22 (R52, R53). -/
def unmaskedOpcode (w : Word) : Int := signed (w.sshiftRight 22)

/-- `Decode(w)` of R52. Under the alternative `DECODE_UPPER_BITS = fault` a word with any of bits 31 to 25 set is rejected
with the opcode of the unmasked shift (R53, R56; DEDUCED, notes/assumptions/13.md). -/
def decode (c : Config) (w : Word) : Except DecodeError Instr :=
  if c.upperBits = .fault ∧ upperBitsField w ≠ 0 then .error (.unknownOpcode (unmaskedOpcode w))
  else
    match c.opcodeMap.mnemonicOf (opcodeField w) with
    | none => .error (.unknownOpcode (opcodeField w).toNat)
    | some m => .ok (decodeFields m w)

/-- The instruction an opcode-table word of `nbits` bits decodes to, bits above `nbits` zero. An instruction is one word
and memory is words (R29, R43), so there is no byte order to lay it out in. -/
def decodeTableWord (nbits w : Nat) : Option Instr :=
  (decode Config.spec (BitVec.ofNat 32 (w % 2 ^ nbits))).toOption

/-! ### The encoder (R45 to R48, R53, R54) -/

/-- The mnemonic of an instruction (R50). -/
def Instr.mnemonic (i : Instr) : Mnemonic :=
  match i with
  | .add _ _ _ => .add
  | .nand _ _ _ => .nand
  | .lw _ _ _ => .lw
  | .sw _ _ _ => .sw
  | .beq _ _ _ => .beq
  | .jalr _ _ => .jalr
  | .halt => .halt
  | .noop => .noop

/-- The 3-bit field of a register number (R49). -/
def regBits (r : RegNum) : BitVec 3 := BitVec.ofNat 3 r.val

/-- R-format (R45): bits 31-25 and 15-3 zero. -/
def encodeR (op : BitVec 3) (regA regB destReg : RegNum) : Word :=
  (0 : BitVec 7) ++ op ++ regBits regA ++ regBits regB ++ (0 : BitVec 13) ++ regBits destReg

/-- I-format (R46): bits 31-25 zero, the offset modulo 65536 in bits 15-0 (R48). -/
def encodeI (op : BitVec 3) (regA regB : RegNum) (offset : Int) : Word :=
  (0 : BitVec 7) ++ op ++ regBits regA ++ regBits regB ++ BitVec.ofInt 16 offset

/-- J-format (R47): bits 31-25 and 15-0 zero. -/
def encodeJ (op : BitVec 3) (regA regB : RegNum) : Word :=
  (0 : BitVec 7) ++ op ++ regBits regA ++ regBits regB ++ (0 : BitVec 16)

/-- O-format (R47): bits 31-25 and 21-0 zero. -/
def encodeO (op : BitVec 3) : Word :=
  (0 : BitVec 7) ++ op ++ (0 : BitVec 22)

/-- The word of an instruction under a given opcode value. -/
def encodeFields (op : BitVec 3) (i : Instr) : Word :=
  match i with
  | .add regA regB destReg => encodeR op regA regB destReg
  | .nand regA regB destReg => encodeR op regA regB destReg
  | .lw regA regB offset => encodeI op regA regB offset
  | .sw regA regB offset => encodeI op regA regB offset
  | .beq regA regB offset => encodeI op regA regB offset
  | .jalr regA regB => encodeJ op regA regB
  | .halt => encodeO op
  | .noop => encodeO op

/-- Why an instruction has no word. -/
inductive EncodeError where
  /-- "report 'unknown mnemonic'" (R51) -/
  | unknownMnemonic
  /-- the offset does not fit signed 16 bits (R65) -/
  | offsetOutOfRange
  deriving DecidableEq, Repr

/-- The word of a well-formed instruction (R51, R64 to R66). -/
def encode (c : Config) (i : Instr) : Except EncodeError Word :=
  match c.opcodeMap.opcodeOf i.mnemonic with
  | none => .error .unknownMnemonic
  | some op => if i.wellFormed then .ok (encodeFields op i) else .error .offsetOutOfRange

/-- The bits an instruction of a format uses (R45 to R47): every other bit of its word is written 0 by an encoder (R53, R54). -/
def Format.usedBits (f : Format) : Word :=
  match f with
  | .R => 0x01FF0007
  | .I => 0x01FFFFFF
  | .J => 0x01FF0000
  | .O => 0x01C00000

end Sys2Proof
end

