-- ==== Sys2Proof/Machine/State.lean ====
section
/-! DEFINITION. The complete state of the machine (10_state.md R13), its errors and stops, and its reset. -/

namespace Sys2Proof.Machine

/-- The runtime stop causes of 60_exceptions.md R88, each with the information it reports beside the pc. -/
inductive RunError where
  /-- the fetch of a step whose `pc` is outside 0 to 65535 (R91) -/
  | fetchAddressOutOfRange (a : Int)
  /-- the decoder, for an opcode with no entry in `OPCODE_MAP` (R89) -/
  | unknownOpcodeAtRuntime (op : Int)
  /-- `lw` and `sw`, for an effective address outside 0 to 65535 (R90) -/
  | memoryAddressOutOfRange (a : Int)
  /-- the step limit, where `MAX_STEPS` is present (R98) -/
  | instructionLimitExceeded (count : Nat)
  deriving DecidableEq, Repr

/-- The run status (R23). -/
inductive RunStatus where
  /-- the machine takes steps -/
  | running
  /-- a `halt` instruction has completed -/
  | halted
  /-- a fatal error was raised by the step whose instruction address was `addr` -/
  | faulted (e : RunError) (addr : Word)
  deriving DecidableEq, Repr

/-- Memory: the words that are not zero, by rising word address (R24, R28). An unlisted address reads as 0, the spec's own
reset contents (R26, R37). The cell is the 32-bit word, the spec's addressable unit: R29 has no bytes
(notes/assumptions/3.md). -/
abbrev Memory := List (Nat × Word)

/-- "The complete state of the machine is the five items below and nothing else" (R13). -/
structure State where
  /-- the 8 general registers (R14) -/
  x : Vector Word 8
  /-- the program counter, a word address (R17) -/
  pc : Word
  /-- the unified memory of 65536 words (R24) -/
  mem : Memory
  /-- the run status (R23) -/
  run : RunStatus
  /-- the number of steps completed since reset, visible to the host alone (R25) -/
  icount : Nat
  deriving DecidableEq, Repr

/-- Why a step answers no state. -/
inductive Fault where
  /-- Raised by `step` alone, on a state whose run status is `halted`: such a state "has no next step" (R10, D8). Safe. -/
  | haltedHasNoStep
  /-- Raised by `step` alone, on a state whose run status is `faulted e addr`: as above (R10, R97, D8). Safe. -/
  | faultedHasNoStep (e : RunError) (addr : Word)
  deriving DecidableEq, Repr

/-- Why the model gives no meaning. -/
inductive Refusal where
  /-- Raised by no arm of `exec` now: every instruction has its meaning. Safe. -/
  | notModelled (mnemonic : String)
  /-- Raised by `resetWith` for an image of more than 65536 words (R107, D11). Safe. -/
  | imageTooLong (length : Nat)
  /-- Raised by `resetWith` for an image element that is no 32-bit value (R107, D11). Safe. -/
  | imageElementOutOfRange (value : Int)
  deriving DecidableEq, Repr

/-- The state after reset with the empty image (R26, R106, R107): every value is the spec's. -/
def State.reset : State :=
  { x := Vector.replicate 8 0, pc := 0, mem := [], run := .running, icount := 0 }

end Sys2Proof.Machine
end

