-- ==== Sys2Proof/Machine/Ops.lean ====
section
/-! DEFINITION. The operations over registers, pc, memory and run status that every meaning is written with:
the primitives of 00_scope.md R9, 20_memory.md R34 to R36, and raising an error (60_exceptions.md R92). -/

namespace Sys2Proof.Machine

/-! ### Registers and pc (R9) -/

/-- `x[i]`. -/
def State.readReg (s : State) (i : RegNum) : Word := s.x[i]

/-- `x[i] <- v`. No register is hard-wired (R15). -/
def State.writeReg (s : State) (i : RegNum) (v : Word) : State := { s with x := s.x.set i v }

/-- `pc <- t`: unchecked when written (R17, D6). -/
def State.setPc (s : State) (t : Word) : State := { s with pc := t }

/-- `pc + 1`, the address of the instruction after the one executing (R18). -/
def State.pcNext (s : State) : Word := s.pc + 1

/-- `pc <- pc + 1` (R18). -/
def State.advance (s : State) : State := s.setPc s.pcNext

/-! ### The word array -/

/-- The word an array of cells holds at an address; 0 where none is listed (R26). -/
def Memory.read (m : Memory) (a : Nat) : Word :=
  match m with
  | [] => 0
  | (b, v) :: rest => if b = a then v else Memory.read rest a

/-- `mem[a] <- v`, keeping the canonical form: a zero word is not listed. -/
def Memory.write (m : Memory) (a : Nat) (v : Word) : Memory :=
  match m with
  | [] => if v = 0 then [] else [(a, v)]
  | (b, u) :: rest =>
    if a < b then (if v = 0 then (b, u) :: rest else (a, v) :: (b, u) :: rest)
    else if a = b then (if v = 0 then rest else (a, v) :: rest)
    else (b, u) :: Memory.write rest a v

/-- The canonical form: addresses strictly rising, inside 0 to 65535, and no zero word listed. -/
def Memory.wf (m : Memory) : Bool :=
  match m with
  | [] => true
  | (a, v) :: rest =>
    decide (a < memWords) && decide (v ≠ 0) && rest.all (fun cell => decide (a < cell.1)) && Memory.wf rest

/-! ### The access primitives (R34, R35, R36) -/

/-- The range check of R34 to R36: `a < 0 or a > 65535`. -/
abbrev OutOfRange (a : Int) : Prop := a < 0 ∨ a > 65535

/-- `MemRead(a, 1)` of R34. -/
def memRead (s : State) (a : Int) : Except RunError Word :=
  if OutOfRange a then .error (.memoryAddressOutOfRange a) else .ok (s.mem.read a.toNat)

/-- `MemWrite(a, 1, v)` of R35: the check comes before the write. -/
def memWrite (s : State) (a : Int) (v : Word) : Except RunError State :=
  if OutOfRange a then .error (.memoryAddressOutOfRange a)
  else .ok { s with mem := s.mem.write a.toNat v }

/-- `Fetch(a)` of R36. -/
def fetch (s : State) (a : Int) : Except RunError Word :=
  if OutOfRange a then .error (.fetchAddressOutOfRange a) else .ok (s.mem.read a.toNat)

/-! ### Raising an error, halting, completing a step -/

/-- `raise E` of R92: nothing changes but `run <- Faulted(E, pc)`. There is no handler to go to and no return from it
(R96, R97). -/
def State.raise (s : State) (e : RunError) : State := { s with run := .faulted e s.pc }

/-- `run <- Halted` (R84). -/
def State.halt (s : State) : State := { s with run := .halted }

/-- The outcome of an instruction whose effect either completes or raises: an error discards every effect and is raised
in the state the instruction began in (R92, R110). -/
def State.attempt (s : State) (effect : Except RunError State) : Host.Outcome State Fault Refusal :=
  match effect with
  | .ok t => .next t
  | .error e => .next (s.raise e)

/-- `icount <- icount + 1` at the end of every step that raises no error, the step of `halt` included (R25, R110). -/
def State.complete (t : State) : State :=
  match t.run with
  | .running => { t with icount := t.icount + 1 }
  | .halted => { t with icount := t.icount + 1 }
  | .faulted _ _ => t

/-! ### Placing words in memory from outside (R106) -/

/-- `mem[a], mem[a + 1], ... <- words`. -/
def Memory.load (m : Memory) (a : Nat) (words : List Word) : Memory :=
  match words with
  | [] => m
  | w :: rest => Memory.load (m.write a w) (a + 1) rest

/-- The state ready to fetch `w` as its next instruction: `w` stands at `pc`, the machine runs, and a `pc` that no fetch
accepts is put at the entry point. It stands for the host's load of a program (notes/assumptions/9.md). -/
def State.placeFetchWord (s : State) (w : Word) : State :=
  let pc := if OutOfRange (signed s.pc) then 0 else s.pc
  { s with pc := pc, run := .running, mem := s.mem.write (signed pc).toNat w }

end Sys2Proof.Machine
end

