-- ==== Sys2Proof/Machine/Operands.lean ====
section
/-! DEFINITION. The operand forms that are more than a register: the effective address of `lw` and `sw`
(41_load_store.md R76) and the target of a taken `beq` (42_control.md R80, R81); and which
registers and memory words an instruction names (10_state.md R16). -/

namespace Sys2Proof.Machine

/-- `EA(regA, offset) = signed(x[regA] +32 sext_32(offset))` (R76): "base register plus sign-extended 16-bit offset". -/
def effectiveAddress (s : State) (regA : RegNum) (offset : Int) : Int :=
  signed (s.readReg regA + wrap32 offset)

/-- `pc + 1 + sext_32(offset)` (R80): relative to the address after the branch (R81). -/
def branchTarget (s : State) (offset : Int) : Word := s.pcNext + wrap32 offset

/-- The registers an instruction reads (R16). -/
def sourceRegs (i : Instr) : List RegNum :=
  match i with
  | .add regA regB _ => [regA, regB]
  | .nand regA regB _ => [regA, regB]
  | .lw regA _ _ => [regA]
  | .sw regA regB _ => [regA, regB]
  | .beq regA regB _ => [regA, regB]
  | .jalr regA _ => [regA]
  | .halt => []
  | .noop => []

/-- The register an instruction writes (R16). -/
def destRegOf (i : Instr) : Option RegNum :=
  match i with
  | .add _ _ destReg => some destReg
  | .nand _ _ destReg => some destReg
  | .lw _ regB _ => some regB
  | .sw _ _ _ => none
  | .beq _ _ _ => none
  | .jalr _ regB => some regB
  | .halt => none
  | .noop => none

/-- The address and word an instruction stores, where it stores one (R78). -/
def storeOf (i : Instr) (s : State) : Option (Nat × Word) :=
  match i with
  | .sw regA regB offset =>
    if OutOfRange (effectiveAddress s regA offset) then none
    else some ((effectiveAddress s regA offset).toNat, s.readReg regB)
  | .add _ _ _ => none
  | .nand _ _ _ => none
  | .lw _ _ _ => none
  | .beq _ _ _ => none
  | .jalr _ _ => none
  | .halt => none
  | .noop => none

end Sys2Proof.Machine
end

