-- ==== Sys2Proof/Machine/Arith.lean ====
section
/-! DEFINITION. The R-format family: `add` and `nand` (40_arith_logic.md R71, R72). -/

namespace Sys2Proof.Machine

/-- An R-format effect: the result is computed from the old registers, then written (R75). -/
def writeResult (s : State) (destReg : RegNum) (t : Word) : Host.Outcome State Fault Refusal :=
  .next (s.writeReg destReg t).advance

/-- `add` (R71): `x[destReg] <- x[regA] +32 x[regB]`. -/
def execAdd (regA regB destReg : RegNum) (s : State) : Host.Outcome State Fault Refusal :=
  writeResult s destReg (s.readReg regA + s.readReg regB)

/-- `nand` (R72): `x[destReg] <- ~(x[regA] & x[regB])`. -/
def execNand (regA regB destReg : RegNum) (s : State) : Host.Outcome State Fault Refusal :=
  writeResult s destReg (~~~(s.readReg regA &&& s.readReg regB))

end Sys2Proof.Machine
end

