-- ==== Sys2Proof/Machine/Flags.lean ====
section
/-! DEFINITION. The hardware has no flags (10_state.md R20). The one condition it computes is the equality `beq` tests:
"the only conditional instruction, `beq`, compares two registers directly". -/

namespace Sys2Proof.Machine

/-- `x[regA] == x[regB]`: equality of all 32 bits (R80). -/
abbrev RegsEqual (s : State) (regA regB : RegNum) : Prop := s.readReg regA = s.readReg regB

end Sys2Proof.Machine
end

