-- ==== Sys2Proof/Machine/Control.lean ====
section
/-! DEFINITION. The control transfers: `beq` and `jalr` (42_control.md R80, R82). -/

namespace Sys2Proof.Machine

/-- `beq` (R80). The target is not checked when written (R17). -/
def execBeq (regA regB : RegNum) (offset : Int) (s : State) : Host.Outcome State Fault Refusal :=
  .next (if RegsEqual s regA regB then s.setPc (branchTarget s offset) else s.advance)

/-- `jalr` (R82): the target is the value `x[regA]` held before the step, also when regA = regB (C4). -/
def execJalr (regA regB : RegNum) (s : State) : Host.Outcome State Fault Refusal :=
  .next ((s.writeReg regB s.pcNext).setPc (s.readReg regA))

end Sys2Proof.Machine
end

