-- ==== Sys2Proof/Machine/LoadStore.lean ====
section
/-! DEFINITION. The memory instructions: `lw` and `sw` (41_load_store.md R77, R78). -/

namespace Sys2Proof.Machine

/-- `lw` (R77): the address comes from the old `x[regA]`; an error is raised before `x[regB]` is written. -/
def execLw (regA regB : RegNum) (offset : Int) (s : State) : Host.Outcome State Fault Refusal :=
  s.attempt ((memRead s (effectiveAddress s regA offset)).map fun v => (s.writeReg regB v).advance)

/-- `sw` (R78): an error is raised before any word is written. -/
def execSw (regA regB : RegNum) (offset : Int) (s : State) : Host.Outcome State Fault Refusal :=
  s.attempt ((memWrite s (effectiveAddress s regA offset) (s.readReg regB)).map State.advance)

end Sys2Proof.Machine
end

