-- ==== Sys2Proof/Machine/System.lean ====
section
/-! DEFINITION. The operand-less instructions: `halt` and `noop` (43_system.md R84, R85). -/

namespace Sys2Proof.Machine

/-- `halt` (R84): "pc still advances by convention before halting is observed" (C3). -/
def execHalt (s : State) : Host.Outcome State Fault Refusal := .next s.advance.halt

/-- `noop` (R85): "no state change besides normal pc advance". -/
def execNoop (s : State) : Host.Outcome State Fault Refusal := .next s.advance

end Sys2Proof.Machine
end

