-- ==== Sys2Proof/Machine/Cycle.lean ====
section
/-! DEFINITION. One iteration of the fetch-decode-execute loop under any configuration (70_reset_and_hazards.md R110),
and a run of several (43_system.md R87). -/

namespace Sys2Proof.Machine

/-- The limit check of R98: `MAX_STEPS is present and icount >= MAX_STEPS`. -/
def limitReached (c : Config) (s : State) : Bool :=
  match c.maxSteps with
  | none => false
  | some n => decide (s.icount ≥ n)

/-- The runtime error a decoder's rejection is (R56, R89). -/
def decodeRunError (e : DecodeError) : RunError :=
  match e with
  | .unknownOpcode op => .unknownOpcodeAtRuntime op

/-- `Execute(i)` and the count of R110. -/
def execAndCount (i : Instr) (s : State) : Host.Outcome State Fault Refusal :=
  match exec i s with
  | .next t => .next t.complete
  | .fault r => .fault r
  | .refused r => .refused r

/-- `w <- Fetch(pc)`, `i <- Decode(w)`, the two checks in that order (R93, R110). -/
def fetchDecode (c : Config) (s : State) : Except RunError Instr :=
  match fetch s (signed s.pc) with
  | .error e => .error e
  | .ok w =>
    match decode c w with
    | .error e => .error (decodeRunError e)
    | .ok i => .ok i

/-- `Step` of R110 for a state that is `Running`. -/
def stepRunning (c : Config) (s : State) : Host.Outcome State Fault Refusal :=
  if limitReached c s then .next (s.raise (.instructionLimitExceeded s.icount))
  else
    match fetchDecode c s with
    | .error e => .next (s.raise e)
    | .ok i => execAndCount i s

/-- One step under the configuration `c`. "A state whose run status is not `Running` has no next step" (R10). -/
def stepWith (c : Config) (s : State) : Host.Outcome State Fault Refusal :=
  match s.run with
  | .running => stepRunning c s
  | .halted => .fault .haltedHasNoStep
  | .faulted e addr => .fault (.faultedHasNoStep e addr)

/-- The state after at most `n` steps: a stopped machine stays as it is (R97; X6 of 95_test_vectors.md). -/
def runWith (c : Config) (n : Nat) (s : State) : State :=
  match n with
  | 0 => s
  | n + 1 =>
    match stepWith c s with
    | .next t => runWith c n t
    | .fault _ => s
    | .refused _ => s

end Sys2Proof.Machine
end

