-- ==== Sys2Proof/Machine/HostView.lean ====
section
/-! DEFINITION. What the host hands the machine and what it gets back: the image of reset (70_reset_and_hazards.md R106,
R107; 60_exceptions.md R102), the trace (R103) and the final summary (R104). -/

namespace Sys2Proof.Machine

/-- `MEMWORDS` bounds the image and an element is a 32-bit value, "an integer from -2147483648 to 2147483647" (R107). -/
abbrev ImageElementFits (v : Int) : Prop := -2147483648 ≤ v ∧ v ≤ 2147483647

/-- `Reset(image)` of R106, refusing the images R107 refuses: "no machine state is created". -/
def resetWith (image : List Int) : Host.Outcome State Fault Refusal :=
  if image.length > memWords then .refused (.imageTooLong image.length)
  else
    match image.find? (fun v => !decide (ImageElementFits v)) with
    | some v => .refused (.imageElementOutOfRange v)
    | none => .next { State.reset with mem := Memory.load [] 0 (image.map wrap32) }

/-- What a trace shows: "pc, populated memory, all 8 registers" (R103). -/
structure Observation where
  pc  : Word
  x   : Vector Word 8
  mem : Memory
  deriving DecidableEq, Repr

/-- The read-only observation of a state (R103, D17). -/
def State.observe (s : State) : Observation := { pc := s.pc, x := s.x, mem := s.mem }

/-- The trace of at most `n` steps: one observation at the start of each step and one of the final state (R103). -/
def traceWith (c : Config) (n : Nat) (s : State) : List Observation :=
  match n with
  | 0 => [s.observe]
  | n + 1 =>
    match stepWith c s with
    | .next t => s.observe :: traceWith c n t
    | .fault _ => [s.observe]
    | .refused _ => [s.observe]

/-- "a final summary (instruction count, halted vs. limit-reached)" (R104). -/
structure Summary where
  icount : Nat
  run    : RunStatus
  deriving DecidableEq, Repr

/-- The summary of a final state (R104). -/
def State.summary (s : State) : Summary := { icount := s.icount, run := s.run }

end Sys2Proof.Machine
end

