-- ==== Sys2Proof/Machine/Step.lean ====
section
/-! DEFINITION. The machine's step, in this spec's configuration (00_scope.md R6; 70_reset_and_hazards.md R110). -/

namespace Sys2Proof.Machine

/-- One step of the machine of R6: the table of R50, bits 31 to 25 ignored, no step limit. -/
def step (s : State) : Host.Outcome State Fault Refusal := stepWith Config.spec s

/-- `s` with an instruction word placed where the next fetch reads it (notes/assumptions/9.md). -/
def State.withFetchWord (s : State) (nbits w : Nat) : State :=
  s.placeFetchWord (BitVec.ofNat 32 (w % 2 ^ nbits))

end Sys2Proof.Machine
end

