-- ==== Sys2Proof/Machine/Assembler.lean ====
section
/-! DEFINITION. The assembler of 30_encoding.md R59 to R69: two passes over token lines, from source text to an image.
It is software outside the hardware block (00_scope.md R5, R58); no definition of the machine uses it.
Where the spec leaves the syntax open (R70, N10) it refuses: notes/assumptions/15.md. -/

namespace Sys2Proof.Machine

/-- A token: a run of characters with no white space in it (R59). -/
abbrev Token := List Char

/-- The assembler's errors (R69), and the rejections for which the spec gives no name. -/
inductive AsmError where
  /-- "Duplicate label" (R60) -/
  | duplicateLabel (label : Token)
  /-- a label reference with no declaration (R65) -/
  | undefinedLabel (label : Token)
  /-- "Any mnemonic absent from the opcode table and not `.fill`" (R69) -/
  | invalidOpcode (token : Token)
  /-- the offset does not fit signed 16 bits (R65) -/
  | offsetOutOfRange
  /-- a `.fill` with the wrong number of operands (R67) -/
  | malformedDirective
  /-- a register operand that is no literal 0 to 7 (R62; unnamed in the spec) -/
  | badRegister (token : Token)
  /-- an instruction with too few or too many operands (R63, R70; unnamed in the spec) -/
  | badOperandCount
  /-- a `.fill` value outside 32 bits (R67; unnamed in the spec) -/
  | fillOutOfRange (value : Int)
  deriving DecidableEq, Repr

/-- "All assembler errors are fatal ... and must report the offending address/line" (R69). -/
structure AsmFailure where
  error   : AsmError
  address : Nat
  deriving DecidableEq, Repr

/-! ### Lines and tokens (R59) -/

/-- "`#` (strips from first `#` to end of line)". -/
def stripComment (line : List Char) : List Char := line.takeWhile (fun ch => ch != '#')

/-- The tokens of a line, split on white space; `current` is the token being read, last character first. -/
def splitTokens (current : Token) (line : List Char) : List Token :=
  match line with
  | [] => if current.isEmpty then [] else [current.reverse]
  | ch :: rest =>
    if ch.isWhitespace then
      if current.isEmpty then splitTokens [] rest else current.reverse :: splitTokens [] rest
    else splitTokens (ch :: current) rest

/-- The lines that are not empty after comment stripping, as tokens. -/
def tokenLines (source : List (List Char)) : List (List Token) :=
  (source.map fun line => splitTokens [] (stripComment line)).filter fun tokens => !tokens.isEmpty

/-! ### Mnemonics and labels (R60) -/

/-- The mnemonic as it is written, in lower case (R70). -/
def Mnemonic.text (m : Mnemonic) : Token :=
  match m with
  | .add => ['a', 'd', 'd']
  | .nand => ['n', 'a', 'n', 'd']
  | .lw => ['l', 'w']
  | .sw => ['s', 'w']
  | .beq => ['b', 'e', 'q']
  | .jalr => ['j', 'a', 'l', 'r']
  | .halt => ['h', 'a', 'l', 't']
  | .noop => ['n', 'o', 'o', 'p']

/-- The directive `.fill`. -/
def fillText : Token := ['.', 'f', 'i', 'l', 'l']

/-- The mnemonic of the opcode table that a token spells, if any. -/
def knownMnemonic (c : Config) (token : Token) : Option Mnemonic :=
  (c.opcodeMap.map Prod.snd).find? fun m => Mnemonic.text m == token

/-- "If the first token is not a known mnemonic and not the `.fill` directive, treat it as a label" (R60). -/
def isLabel (c : Config) (token : Token) : Bool := (knownMnemonic c token).isNone && token != fillText

/-- The label of a line, if it has one. -/
def lineLabel (c : Config) (line : List Token) : Option Token :=
  match line with
  | [] => none
  | token :: _ => if isLabel c token then some token else none

/-- The line without its label. -/
def lineBody (c : Config) (line : List Token) : List Token :=
  match line with
  | [] => []
  | token :: rest => if isLabel c token then rest else token :: rest

/-- The address after a line: one more exactly when the line yields a word (R61, C12). -/
def addressAfter (c : Config) (line : List Token) (address : Nat) : Nat :=
  if lineBody c line = [] then address else address + 1

/-! ### Pass 1: the symbol table (R60, R61) -/

/-- Labels and the addresses they name. -/
abbrev SymbolTable := List (Token × Nat)

/-- The address a label names. -/
def SymbolTable.addressOf (sym : SymbolTable) (label : Token) : Option Nat :=
  match sym with
  | [] => none
  | (l, a) :: rest => if l = label then some a else SymbolTable.addressOf rest label

/-- Pass 1 from a given address and table. -/
def pass1 (c : Config) (lines : List (List Token)) (address : Nat) (sym : SymbolTable) :
    Except AsmFailure SymbolTable :=
  match lines with
  | [] => .ok sym
  | line :: rest =>
    match lineLabel c line with
    | none => pass1 c rest (addressAfter c line address) sym
    | some label =>
      match sym.addressOf label with
      | some _ => .error { error := .duplicateLabel label, address := address }
      | none => pass1 c rest (addressAfter c line address) ((label, address) :: sym)

/-! ### Operands (R62, R63) -/

/-- The value of a run of decimal digits. -/
def digitsValue (acc : Nat) (digits : List Char) : Option Nat :=
  match digits with
  | [] => some acc
  | d :: rest => if d.isDigit then digitsValue (acc * 10 + (d.toNat - '0'.toNat)) rest else none

/-- "an optional `-` followed by one or more decimal digits" (R62, D19). -/
def literalValue (token : Token) : Option Int :=
  match token with
  | [] => none
  | ch :: rest =>
    if ch = '-' then
      if rest = [] then none else (digitsValue 0 rest).map fun n => -(n : Int)
    else (digitsValue 0 (ch :: rest)).map fun n => (n : Int)

/-- "A register operand is a decimal integer literal 0 to 7" (R62). -/
def registerOperand (token : Token) : Except AsmError RegNum :=
  match literalValue token with
  | none => .error (.badRegister token)
  | some v => if 0 ≤ v ∧ v ≤ 7 then .ok (Fin.ofNat 8 v.toNat) else .error (.badRegister token)

/-- The operand of `lw`, `sw` and `.fill`: a literal, or a label's absolute address (R65, R67). -/
def absoluteOperand (sym : SymbolTable) (token : Token) : Except AsmError Int :=
  match literalValue token with
  | some v => .ok v
  | none =>
    match sym.addressOf token with
    | some a => .ok a
    | none => .error (.undefinedLabel token)

/-- The third operand of `beq` at `address`: a literal as it stands (D15), or for a label
"`symbolAddress − (currentAddress + 1)`" (R65). -/
def branchOperand (sym : SymbolTable) (address : Nat) (token : Token) : Except AsmError Int :=
  match literalValue token with
  | some v => .ok v
  | none =>
    match sym.addressOf token with
    | some a => .ok ((a : Int) - ((address : Int) + 1))
    | none => .error (.undefinedLabel token)

/-- Three register operands (R63). -/
def threeRegisters (operands : List Token) (build : RegNum → RegNum → RegNum → Instr) : Except AsmError Instr :=
  match operands with
  | [a, b, d] =>
    match registerOperand a, registerOperand b, registerOperand d with
    | .ok ra, .ok rb, .ok rd => .ok (build ra rb rd)
    | .error e, _, _ => .error e
    | _, .error e, _ => .error e
    | _, _, .error e => .error e
  | _ => .error .badOperandCount

/-- Two register operands and a value (R63). -/
def twoRegistersAndValue (operands : List Token) (value : Token → Except AsmError Int)
    (build : RegNum → RegNum → Int → Instr) : Except AsmError Instr :=
  match operands with
  | [a, b, v] =>
    match registerOperand a, registerOperand b, value v with
    | .ok ra, .ok rb, .ok n => .ok (build ra rb n)
    | .error e, _, _ => .error e
    | _, .error e, _ => .error e
    | _, _, .error e => .error e
  | _ => .error .badOperandCount

/-- Two register operands (R63). -/
def twoRegisters (operands : List Token) (build : RegNum → RegNum → Instr) : Except AsmError Instr :=
  match operands with
  | [a, b] =>
    match registerOperand a, registerOperand b with
    | .ok ra, .ok rb => .ok (build ra rb)
    | .error e, _ => .error e
    | _, .error e => .error e
  | _ => .error .badOperandCount

/-- No operands (R63). -/
def noOperands (operands : List Token) (i : Instr) : Except AsmError Instr :=
  match operands with
  | [] => .ok i
  | _ :: _ => .error .badOperandCount

/-- The instruction a mnemonic and its operands stand for, at an address (R63, R65). -/
def instructionOf (sym : SymbolTable) (address : Nat) (m : Mnemonic) (operands : List Token) :
    Except AsmError Instr :=
  match m with
  | .add => threeRegisters operands .add
  | .nand => threeRegisters operands .nand
  | .lw => twoRegistersAndValue operands (absoluteOperand sym) .lw
  | .sw => twoRegistersAndValue operands (absoluteOperand sym) .sw
  | .beq => twoRegistersAndValue operands (branchOperand sym address) .beq
  | .jalr => twoRegisters operands .jalr
  | .halt => noOperands operands .halt
  | .noop => noOperands operands .noop

/-! ### Pass 2: the words (R64 to R68) -/

/-- What a line's body stands for once its symbols are resolved. -/
inductive Statement where
  | instr (i : Instr)
  | fill (value : Int)
  deriving DecidableEq, Repr

/-- The statement of a line's body at an address. -/
def statementOf (c : Config) (sym : SymbolTable) (address : Nat) (body : List Token) : Except AsmError Statement :=
  match body with
  | [] => .error .badOperandCount
  | token :: operands =>
    if token = fillText then
      match operands with
      | [v] => (absoluteOperand sym v).map .fill
      | _ => .error .malformedDirective
    else
      match knownMnemonic c token with
      | none => .error (.invalidOpcode token)
      | some m => (instructionOf sym address m operands).map .instr

/-- The word of a statement: an instruction's encoding (R64 to R66), or a `.fill` value "verbatim, with no opcode field" (R67). -/
def statementWord (c : Config) (st : Statement) : Except AsmError Word :=
  match st with
  | .instr i =>
    match encode c i with
    | .ok w => .ok w
    | .error .unknownMnemonic => .error (.invalidOpcode (Mnemonic.text i.mnemonic))
    | .error .offsetOutOfRange => .error .offsetOutOfRange
  | .fill v => if ImageElementFits v then .ok (wrap32 v) else .error (.fillOutOfRange v)

/-- The word of a line's body at an address. -/
def lineWord (c : Config) (sym : SymbolTable) (address : Nat) (body : List Token) : Except AsmError Word :=
  match statementOf c sym address body with
  | .error e => .error e
  | .ok st => statementWord c st

/-- Pass 2 "walks the same lines in the same order with a fresh counter" (R61). -/
def pass2 (c : Config) (sym : SymbolTable) (lines : List (List Token)) (address : Nat) : Except AsmFailure (List Word) :=
  match lines with
  | [] => .ok []
  | line :: rest =>
    if lineBody c line = [] then pass2 c sym rest address
    else
      match lineWord c sym address (lineBody c line) with
      | .error e => .error { error := e, address := address }
      | .ok w =>
        match pass2 c sym rest (address + 1) with
        | .error f => .error f
        | .ok ws => .ok (w :: ws)

/-- Both passes over token lines: all or nothing (R69). -/
def assembleLines (c : Config) (lines : List (List Token)) : Except AsmFailure (List Word) :=
  match pass1 c lines 0 [] with
  | .error f => .error f
  | .ok sym => pass2 c sym lines 0

/-- The assembler: source text in, words in address order out (R68). -/
def assemble (c : Config) (source : List String) : Except AsmFailure (List Word) :=
  assembleLines c (tokenLines (source.map String.toList))

/-- "Each integer is the signed value of the 32-bit word" (R68): the image reset is handed (R107). -/
def imageOfWords (words : List Word) : List Int := words.map signed

end Sys2Proof.Machine
end

