-- ==== Sys2Proof/Machine/History.lean ====
section
/-! DEFINITION. Histories that claims speak of: the stores of a run in program order ("the most recent `sw`" of
20_memory.md R39), and the effect of instructions one after another (40_arith_logic.md R74). -/

namespace Sys2Proof.Machine

/-- The store the next step of a state performs, if it performs one. -/
def nextStore (c : Config) (s : State) : Option (Nat × Word) :=
  match s.run with
  | .running =>
    if limitReached c s then none
    else
      match fetchDecode c s with
      | .error _ => none
      | .ok i => storeOf i s
  | .halted => none
  | .faulted _ _ => none

/-- The stores of the first `n` steps, oldest first. -/
def storesOf (c : Config) (n : Nat) (s : State) : List (Nat × Word) :=
  match n with
  | 0 => []
  | n + 1 =>
    match stepWith c s with
    | .next t => (nextStore c s).toList ++ storesOf c n t
    | .fault _ => []
    | .refused _ => []

/-- The word of the most recent store to `a`, or `initial` where there is none (R39). -/
def lastStoreTo (a : Nat) (initial : Word) (stores : List (Nat × Word)) : Word :=
  match stores with
  | [] => initial
  | (b, v) :: rest => lastStoreTo a (if b = a then v else initial) rest

/-- The effects of instructions one after another, whatever stands in memory. -/
def execAll (is : List Instr) (s : State) : Host.Outcome State Fault Refusal :=
  match is with
  | [] => .next s
  | i :: rest =>
    match exec i s with
    | .next t => execAll rest t
    | .fault r => .fault r
    | .refused r => .refused r

end Sys2Proof.Machine
end

