-- ==== Sys2Proof/Safety.lean ====
section
/-! DEFINITION. The terms claims are stated in: which states a run can be in, what a safe run is, and what it means for
registers, memory and the rest to be unchanged. -/

namespace Sys2Proof.Machine

/-- The run has raised no fatal error and met no limit (R10, R87). -/
def Safe (s : State) : Prop := ∀ e addr, s.run ≠ .faulted e addr

/-- The error a faulted state records is the one its own `pc`, memory and count call for (R88, R92): an error step changes
nothing else, so the cause still stands in the state. -/
def ErrorHasCause (c : Config) (s : State) (e : RunError) : Prop :=
  match e with
  | .fetchAddressOutOfRange a => a = signed s.pc ∧ OutOfRange a
  | .unknownOpcodeAtRuntime op =>
      ∃ w, fetch s (signed s.pc) = .ok w ∧ decode c w = .error (.unknownOpcode op)
  | .memoryAddressOutOfRange a => OutOfRange a ∧
      ∃ regA regB offset, effectiveAddress s regA offset = a ∧
        (fetchDecode c s = .ok (.lw regA regB offset) ∨ fetchDecode c s = .ok (.sw regA regB offset))
  | .instructionLimitExceeded n => n = s.icount ∧ limitReached c s = true

/-- What the run status says of the rest of the state (R18, R23, R25, R92). -/
def StatusHasCause (c : Config) (s : State) : Prop :=
  match s.run with
  | .running => True
  | .halted => 1 ≤ signed s.pc ∧ signed s.pc ≤ 65536 ∧ 1 ≤ s.icount
  | .faulted e addr => addr = s.pc ∧ ErrorHasCause c s e

/-- The invariant of a run under the configuration `c`. -/
structure Inv (c : Config) (s : State) : Prop where
  /-- memory keeps its canonical form -/
  memory : s.mem.wf = true
  /-- the run status is backed by the rest of the state -/
  status : StatusHasCause c s
  /-- "at most `MAX_STEPS` instructions execute" (R98) -/
  limit  : ∀ n, c.maxSteps = some n → s.icount ≤ n

/-- `w[hi:lo]` of R7: "the unsigned integer formed by bits `hi` down to `lo` of `w`, inclusive". -/
def bits (w : Word) (hi lo : Nat) : Nat := w.toNat / 2 ^ lo % 2 ^ (hi + 1 - lo)

/-- The bodies of the lines that yield a word, in order (R61). -/
def wordLines (c : Config) (lines : List (List Token)) : List (List Token) :=
  (lines.map (lineBody c)).filter fun body => !body.isEmpty

/-- Every register but `d` holds what it held. -/
def RegsSameBut (d : RegNum) (s t : State) : Prop := ∀ r, r ≠ d → t.readReg r = s.readReg r

/-- Every register holds what it held. -/
def RegsSame (s t : State) : Prop := ∀ r, t.readReg r = s.readReg r

/-- Every memory word reads as before. -/
def MemSame (s t : State) : Prop := ∀ a, t.mem.read a = s.mem.read a

/-- The run status and the instruction count are as before. -/
def StatusSame (s t : State) : Prop := t.run = s.run ∧ t.icount = s.icount

end Sys2Proof.Machine
end

