-- ==== Sys2Proof/Certificates/Slice0/Obligations.lean ====
section
/-! DEFINITION. The statements for the provers. Each docstring names the rule of spec/ its statement formalises; where it
rests on a decision of the spec or of this model, it names that too. -/

open Sys2Proof Sys2Proof.Machine

/-! ### Encoding and decoding -/

/-- One word of each instruction, written out bit by bit from R45 to R47 and R50, and words with ignored bits set
(30_encoding.md R53 to R55).
They rest on the spec's decisions D1 (opcode values), D2 and D3 (ignored bits): notes/assumptions/1.md and 2.md. -/
def Obligations.WrittenWordsDecode : Prop :=
  decode Config.spec 0b0000000_000_001_010_0000000000000_011 = .ok (.add 1 2 3) ∧
  decode Config.spec 0b0000000_001_001_010_0000000000000_011 = .ok (.nand 1 2 3) ∧
  decode Config.spec 0b0000000_010_000_001_0000000001100100 = .ok (.lw 0 1 100) ∧
  decode Config.spec 0b0000000_011_000_011_0000000000001010 = .ok (.sw 0 3 10) ∧
  decode Config.spec 0b0000000_100_000_000_1111111111111111 = .ok (.beq 0 0 (-1)) ∧
  decode Config.spec 0b0000000_101_100_111_0000000000000000 = .ok (.jalr 4 7) ∧
  decode Config.spec 0b0000000_110_0000000000000000000000 = .ok .halt ∧
  decode Config.spec 0b0000000_111_0000000000000000000000 = .ok .noop ∧
  decode Config.spec 0b1111111_000_001_010_1111111111111_011 = .ok (.add 1 2 3) ∧
  decode Config.spec 0b1111111_110_1111111111111111111111 = .ok .halt

/-- R52 with the fields of R44 to R47: under `DECODE_UPPER_BITS = ignore` the decoder rejects an opcode that the table of a
configuration lacks; in the spec's configuration every word decodes, each operand read from its own bits, the offset as R48
gives it. The opcode numbers are R50's, the spec's decision D1, and that every word decodes rests on D2 and D3 as well
(notes/assumptions/1.md and 2.md). -/
def Obligations.DecoderReadsTheFieldsOfTheFormat : Prop :=
  (∀ (c : Config) (w : Word), c.upperBits = .ignore → c.opcodeMap.mnemonicOf (opcodeField w) = none →
    decode c w = .error (.unknownOpcode (bits w 24 22))) ∧
  ∀ w : Word, ∃ i, decode Config.spec w = .ok i ∧
    match i with
    | .add a b d => bits w 24 22 = 0 ∧ a.val = bits w 21 19 ∧ b.val = bits w 18 16 ∧ d.val = bits w 2 0
    | .nand a b d => bits w 24 22 = 1 ∧ a.val = bits w 21 19 ∧ b.val = bits w 18 16 ∧ d.val = bits w 2 0
    | .lw a b off => bits w 24 22 = 2 ∧ a.val = bits w 21 19 ∧ b.val = bits w 18 16 ∧
        off = if bits w 15 15 = 1 then (bits w 15 0 : Int) - 65536 else bits w 15 0
    | .sw a b off => bits w 24 22 = 3 ∧ a.val = bits w 21 19 ∧ b.val = bits w 18 16 ∧
        off = if bits w 15 15 = 1 then (bits w 15 0 : Int) - 65536 else bits w 15 0
    | .beq a b off => bits w 24 22 = 4 ∧ a.val = bits w 21 19 ∧ b.val = bits w 18 16 ∧
        off = if bits w 15 15 = 1 then (bits w 15 0 : Int) - 65536 else bits w 15 0
    | .jalr a b => bits w 24 22 = 5 ∧ a.val = bits w 21 19 ∧ b.val = bits w 18 16
    | .halt => bits w 24 22 = 6
    | .noop => bits w 24 22 = 7

/-- Decoding an encoded instruction gives it back, under every one-to-one table and either treatment of bits 31 to 25, and
every well-formed instruction has an encoding (30_encoding.md R48, R51; S6 of 95_test_vectors.md). -/
def Obligations.DecodeOfEncodeIsTheInstruction : Prop :=
  (∀ (c : Config) (i : Instr) (w : Word), c.wf = true → encode c i = .ok w → decode c w = .ok i) ∧
  ∀ i : Instr, i.wellFormed = true → ∃ w, encode Config.spec i = .ok w

/-- The other direction: encoding a decoded word gives it back with the unused bits cleared (R53, R54). -/
def Obligations.EncodeOfDecodeClearsTheUnusedBits : Prop :=
  ∀ (c : Config) (i : Instr) (w : Word), c.wf = true → decode c w = .ok i →
    i.wellFormed = true ∧ encode c i = .ok (w &&& i.mnemonic.format.usedBits)

/-- R55: every 32-bit word is an instruction; a zero cell, -1 and a small `.fill` value are the ones it names.
An inference of the spec from its decisions D1 to D3. -/
def Obligations.EveryWordIsAnInstruction : Prop :=
  (∀ w, ∃ i, decode Config.spec w = .ok i ∧ i.wellFormed = true) ∧
  decode Config.spec 0 = .ok (.add 0 0 0) ∧
  decode Config.spec (wrap32 (-1)) = .ok .noop ∧
  decode Config.spec 5 = .ok (.add 0 0 5)

/-- R53: bits 31 to 25 are not examined; an encoder writes them as 0; masked and unmasked decode agree where they are 0;
under the alternative `fault` the opcode computed lies outside 0 to 7 and the step raises `UnknownOpcodeAtRuntime`.
This is the spec's decision D2 (notes/assumptions/2.md). The number reported under `fault` is notes/assumptions/13.md's. -/
def Obligations.UpperBitsAreNotExamined : Prop :=
  (∀ (c : Config) (w u : Word), c.upperBits = .ignore → bits w 24 0 = bits u 24 0 → decode c w = decode c u) ∧
  (∀ (c : Config) (i : Instr) (w : Word), encode c i = .ok w → w.toNat ≤ 33554431) ∧
  (∀ w : Word, bits w 31 25 = 0 → unmaskedOpcode w = bits w 24 22) ∧
  (∀ (c : Config) (s : State) (w : Word), c.upperBits = .fault → s.run = .running → limitReached c s = false →
    fetch s (signed s.pc) = .ok w → bits w 31 25 ≠ 0 →
    ∃ op : Int, (op < 0 ∨ 7 < op) ∧ stepWith c s = .next (s.raise (.unknownOpcodeAtRuntime op)))

/-- R54: R-format bits 15 to 3, J-format bits 15 to 0 and O-format bits 21 to 0 are ignored by the decoder and written 0 by
an encoder.
This is the spec's decision D3 (notes/assumptions/2.md). -/
def Obligations.UnusedFieldsAreIgnored : Prop :=
  (∀ (c : Config) (w u : Word) (m : Mnemonic), c.upperBits = .ignore → bits w 24 22 = bits u 24 22 →
    c.opcodeMap.mnemonicOf (opcodeField w) = some m →
    (match m.format with
     | .R => bits w 21 16 = bits u 21 16 ∧ bits w 2 0 = bits u 2 0
     | .I => bits w 21 0 = bits u 21 0
     | .J => bits w 21 16 = bits u 21 16
     | .O => True) →
    decode c w = decode c u) ∧
  (∀ (c : Config) (i : Instr) (w : Word), encode c i = .ok w →
    match i.mnemonic.format with
    | .R => bits w 15 3 = 0
    | .I => True
    | .J => bits w 15 0 = 0
    | .O => bits w 21 0 = 0)

/-- R51: one table serves both directions, an unknown mnemonic is reported, and the format of a word is a function of its
opcode alone. -/
def Obligations.OneTableServesBothDirections : Prop :=
  (∀ (c : Config) (m : Mnemonic) (op : BitVec 3), c.wf = true →
    (c.opcodeMap.opcodeOf m = some op ↔ c.opcodeMap.mnemonicOf op = some m)) ∧
  (∀ (c : Config) (i : Instr), c.opcodeMap.opcodeOf i.mnemonic = none → encode c i = .error .unknownMnemonic) ∧
  (∀ (c : Config) (w : Word) (i : Instr), decode c w = .ok i →
    c.opcodeMap.formatOf (opcodeField w) = some i.mnemonic.format) ∧
  (∀ (c : Config) (w u : Word) (i j : Instr), opcodeField w = opcodeField u → decode c w = .ok i → decode c u = .ok j →
    i.mnemonic.format = j.mnemonic.format)

/-- R48: `sext_32` subtracts 65536 exactly when bit 15 is set, and lies in -32768 to 32767. An offset in that range is
stored modulo 65536 and decodes to itself; out of it there is no encoding, by the check of R65. -/
def Obligations.SignExtensionInvertsTruncation : Prop :=
  (∀ v : BitVec 16, signExtend16 v = (if 32768 ≤ v.toNat then (v.toNat : Int) - 65536 else v.toNat) ∧
    -32768 ≤ signExtend16 v ∧ signExtend16 v ≤ 32767) ∧
  (∀ n : Int, -32768 ≤ n → n ≤ 32767 → ∀ a b : RegNum,
    (∃ w, encode Config.spec (.lw a b n) = .ok w ∧ (bits w 15 0 : Int) = n % 65536 ∧
      decode Config.spec w = .ok (.lw a b n)) ∧
    (∃ w, encode Config.spec (.sw a b n) = .ok w ∧ (bits w 15 0 : Int) = n % 65536 ∧
      decode Config.spec w = .ok (.sw a b n)) ∧
    (∃ w, encode Config.spec (.beq a b n) = .ok w ∧ (bits w 15 0 : Int) = n % 65536 ∧
      decode Config.spec w = .ok (.beq a b n))) ∧
  (∀ n : Int, n < -32768 ∨ 32767 < n → ∀ a b : RegNum,
    encode Config.spec (.lw a b n) = .error .offsetOutOfRange ∧
    encode Config.spec (.sw a b n) = .error .offsetOutOfRange ∧
    encode Config.spec (.beq a b n) = .error .offsetOutOfRange)

/-- R64, R65 and R66: a word is its fields shifted into place and ORed, the offset modulo 65536. The reduction modulo 65536
in the clauses of `lw`, `sw` and `beq` is the spec's inference (R65, from R48); the numbers of the four examples rest on its
decision D1. -/
def Obligations.EncoderShiftsAndOrsItsFields : Prop :=
  (∀ (c : Config) (op : BitVec 3) (a b d : RegNum), c.opcodeMap.opcodeOf .add = some op →
    encode c (.add a b d) = .ok (BitVec.ofNat 32
      (op.toNat <<< 22 ||| a.val <<< 19 ||| b.val <<< 16 ||| d.val))) ∧
  (∀ (c : Config) (op : BitVec 3) (a b d : RegNum), c.opcodeMap.opcodeOf .nand = some op →
    encode c (.nand a b d) = .ok (BitVec.ofNat 32
      (op.toNat <<< 22 ||| a.val <<< 19 ||| b.val <<< 16 ||| d.val))) ∧
  (∀ (c : Config) (op : BitVec 3) (a b : RegNum) (v : Int), OffsetFits v → c.opcodeMap.opcodeOf .lw = some op →
    encode c (.lw a b v) = .ok (BitVec.ofNat 32
      (op.toNat <<< 22 ||| a.val <<< 19 ||| b.val <<< 16 ||| (v % 65536).toNat))) ∧
  (∀ (c : Config) (op : BitVec 3) (a b : RegNum) (v : Int), OffsetFits v → c.opcodeMap.opcodeOf .sw = some op →
    encode c (.sw a b v) = .ok (BitVec.ofNat 32
      (op.toNat <<< 22 ||| a.val <<< 19 ||| b.val <<< 16 ||| (v % 65536).toNat))) ∧
  (∀ (c : Config) (op : BitVec 3) (a b : RegNum) (v : Int), OffsetFits v → c.opcodeMap.opcodeOf .beq = some op →
    encode c (.beq a b v) = .ok (BitVec.ofNat 32
      (op.toNat <<< 22 ||| a.val <<< 19 ||| b.val <<< 16 ||| (v % 65536).toNat))) ∧
  (∀ (c : Config) (op : BitVec 3) (a b : RegNum), c.opcodeMap.opcodeOf .jalr = some op →
    encode c (.jalr a b) = .ok (BitVec.ofNat 32 (op.toNat <<< 22 ||| a.val <<< 19 ||| b.val <<< 16))) ∧
  (∀ (c : Config) (op : BitVec 3), c.opcodeMap.opcodeOf .halt = some op →
    encode c .halt = .ok (BitVec.ofNat 32 (op.toNat <<< 22))) ∧
  (∀ (c : Config) (op : BitVec 3), c.opcodeMap.opcodeOf .noop = some op →
    encode c .noop = .ok (BitVec.ofNat 32 (op.toNat <<< 22))) ∧
  encode Config.spec (.add 0 0 1) = .ok 1 ∧
  encode Config.spec (.jalr 4 7) = .ok 23527424 ∧
  encode Config.spec .halt = .ok 25165824 ∧
  encode Config.spec .noop = .ok 29360128

/-! ### The instructions: result, completion and frame -/

/-- R71: `add` decodes from opcode 000, writes the sum modulo 2^32 to its destination, advances the pc, changes nothing
else, and never faults.
The opcode value is the spec's decision D1 (R50; notes/assumptions/1.md). -/
def Obligations.AddWritesTheWrappedSum : Prop :=
  (∀ w : Word, bits w 24 22 = 0 → ∃ a b d, decode Config.spec w = .ok (.add a b d) ∧
    a.val = bits w 21 19 ∧ b.val = bits w 18 16 ∧ d.val = bits w 2 0) ∧
  ∀ (a b d : RegNum) (s : State), ∃ t, exec (.add a b d) s = .next t ∧
    t.readReg d = wrap32 (signed (s.readReg a) + signed (s.readReg b)) ∧
    RegsSameBut d s t ∧ t.pc = s.pc + 1 ∧ MemSame s t ∧ StatusSame s t

/-- R72: `nand` decodes from opcode 001; "bit i of t is 0 exactly when bit i of both sources is 1"; nothing else changes.
The opcode value is the spec's decision D1 (R50; notes/assumptions/1.md). -/
def Obligations.NandWritesTheComplementOfTheAnd : Prop :=
  (∀ w : Word, bits w 24 22 = 1 → ∃ a b d, decode Config.spec w = .ok (.nand a b d) ∧
    a.val = bits w 21 19 ∧ b.val = bits w 18 16 ∧ d.val = bits w 2 0) ∧
  ∀ (a b d : RegNum) (s : State), ∃ t, exec (.nand a b d) s = .next t ∧
    (∀ n, n < 32 → ((t.readReg d).getLsbD n = false ↔
      (s.readReg a).getLsbD n = true ∧ (s.readReg b).getLsbD n = true)) ∧
    RegsSameBut d s t ∧ t.pc = s.pc + 1 ∧ MemSame s t ∧ StatusSame s t

/-- R77: `lw` decodes from opcode 010; in range it loads the word at the effective address of the old base, out of range it
raises `MemoryAddressOutOfRange` before any write.
The opcode value is the spec's decision D1 and the error its decision D4 (R50, R90; notes/assumptions/1.md and 6.md). -/
def Obligations.LwLoadsTheWordOrRaises : Prop :=
  (∀ w : Word, bits w 24 22 = 2 → ∃ a b off, decode Config.spec w = .ok (.lw a b off) ∧
    a.val = bits w 21 19 ∧ b.val = bits w 18 16 ∧
    off = if bits w 15 15 = 1 then (bits w 15 0 : Int) - 65536 else bits w 15 0) ∧
  (∀ (a b : RegNum) (off : Int) (s : State),
    0 ≤ effectiveAddress s a off → effectiveAddress s a off ≤ 65535 →
    ∃ t, exec (.lw a b off) s = .next t ∧
      t.readReg b = s.mem.read (effectiveAddress s a off).toNat ∧
      RegsSameBut b s t ∧ t.pc = s.pc + 1 ∧ MemSame s t ∧ StatusSame s t) ∧
  (∀ (a b : RegNum) (off : Int) (s : State),
    effectiveAddress s a off < 0 ∨ 65535 < effectiveAddress s a off →
    ∃ t, exec (.lw a b off) s = .next t ∧
      t.run = .faulted (.memoryAddressOutOfRange (effectiveAddress s a off)) s.pc ∧
      RegsSame s t ∧ t.pc = s.pc ∧ MemSame s t ∧ t.icount = s.icount)

/-- R78: `sw` decodes from opcode 011; in range it stores all of `x[regB]` at the effective address and nowhere else, out of
range it raises before any write. That the word reads back rests on memory being canonical, which every step keeps.
The opcode value is the spec's decision D1 and the error its decision D4 (R50, R90; notes/assumptions/1.md and 6.md). -/
def Obligations.SwStoresTheWordOrRaises : Prop :=
  (∀ w : Word, bits w 24 22 = 3 → ∃ a b off, decode Config.spec w = .ok (.sw a b off) ∧
    a.val = bits w 21 19 ∧ b.val = bits w 18 16 ∧
    off = if bits w 15 15 = 1 then (bits w 15 0 : Int) - 65536 else bits w 15 0) ∧
  (∀ (a b : RegNum) (off : Int) (s : State), s.mem.wf = true →
    0 ≤ effectiveAddress s a off → effectiveAddress s a off ≤ 65535 →
    ∃ t, exec (.sw a b off) s = .next t ∧
      t.mem.read (effectiveAddress s a off).toNat = s.readReg b ∧
      (∀ a', a' ≠ (effectiveAddress s a off).toNat → t.mem.read a' = s.mem.read a') ∧
      RegsSame s t ∧ t.pc = s.pc + 1 ∧ StatusSame s t) ∧
  (∀ (a b : RegNum) (off : Int) (s : State),
    effectiveAddress s a off < 0 ∨ 65535 < effectiveAddress s a off →
    ∃ t, exec (.sw a b off) s = .next t ∧
      t.run = .faulted (.memoryAddressOutOfRange (effectiveAddress s a off)) s.pc ∧
      RegsSame s t ∧ t.pc = s.pc ∧ MemSame s t ∧ t.icount = s.icount)

/-- R76: the effective address is the base plus the offset modulo 2^32, read as signed; wrapping makes no observable
difference: the wrapped and the exact sum are out of range together, and equal where they are in range.
The spec's decision D7 (notes/assumptions/21.md). -/
def Obligations.EffectiveAddressWrapIsNotObservable : Prop :=
  (∀ (s : State) (a : RegNum) (off : Int),
    effectiveAddress s a off = signed (wrap32 (signed (s.readReg a) + off))) ∧
  (∀ (s : State) (a : RegNum) (off : Int), OffsetFits off →
    -2147516416 ≤ signed (s.readReg a) + off ∧ signed (s.readReg a) + off ≤ 2147516414 ∧
    (OutOfRange (effectiveAddress s a off) ↔ OutOfRange (signed (s.readReg a) + off)) ∧
    (¬ OutOfRange (effectiveAddress s a off) → effectiveAddress s a off = signed (s.readReg a) + off))

/-- R80: `beq` decodes from opcode 100, compares all 32 bits, and moves the pc alone.
The opcode value is the spec's decision D1 (R50; notes/assumptions/1.md). -/
def Obligations.BeqBranchesExactlyOnEquality : Prop :=
  (∀ w : Word, bits w 24 22 = 4 → ∃ a b off, decode Config.spec w = .ok (.beq a b off) ∧
    a.val = bits w 21 19 ∧ b.val = bits w 18 16 ∧
    off = if bits w 15 15 = 1 then (bits w 15 0 : Int) - 65536 else bits w 15 0) ∧
  ∀ (a b : RegNum) (off : Int) (s : State), ∃ t, exec (.beq a b off) s = .next t ∧
    (s.readReg a = s.readReg b → t.pc = wrap32 (signed s.pc + 1 + off)) ∧
    (s.readReg a ≠ s.readReg b → t.pc = wrap32 (signed s.pc + 1)) ∧
    RegsSame s t ∧ MemSame s t ∧ StatusSame s t

/-- R82: `jalr` decodes from opcode 101, links `pc + 1`, and jumps to the value `x[regA]` held before the step, also when
regA = regB (C4).
The opcode value is the spec's decision D1 (R50; notes/assumptions/1.md). -/
def Obligations.JalrLinksAndJumpsToTheOldValue : Prop :=
  (∀ w : Word, bits w 24 22 = 5 → ∃ a b, decode Config.spec w = .ok (.jalr a b) ∧
    a.val = bits w 21 19 ∧ b.val = bits w 18 16) ∧
  ∀ (a b : RegNum) (s : State), ∃ t, exec (.jalr a b) s = .next t ∧
    t.pc = s.readReg a ∧ t.readReg b = wrap32 (signed s.pc + 1) ∧
    RegsSameBut b s t ∧ MemSame s t ∧ StatusSame s t

/-- R84: `halt` decodes from opcode 110, advances the pc, halts, changes nothing else, is counted, and no step follows it;
at address 65535 it leaves pc = 65536 without a fault.
The opcode value is the spec's decision D1 (R50; notes/assumptions/1.md). -/
def Obligations.HaltAdvancesThenStops : Prop :=
  (∀ w : Word, bits w 24 22 = 6 → decode Config.spec w = .ok .halt) ∧
  (∀ s : State, ∃ t, exec .halt s = .next t ∧ t.run = .halted ∧ t.pc = s.pc + 1 ∧
    RegsSame s t ∧ MemSame s t ∧ t.icount = s.icount) ∧
  (∀ (s : State) (w : Word), s.run = .running → fetch s (signed s.pc) = .ok w → bits w 24 22 = 6 →
    ∃ t, step s = .next t ∧ t.run = .halted ∧ signed t.pc = signed s.pc + 1 ∧ t.icount = s.icount + 1 ∧
      RegsSame s t ∧ MemSame s t ∧ (∀ u, step t ≠ .next u) ∧ ∀ n, runWith Config.spec n t = t)

/-- R85: any word with opcode 111 is a `noop`, which advances the pc and changes nothing else.
The opcode value is the spec's decision D1 (R50; notes/assumptions/1.md). -/
def Obligations.NoopOnlyAdvancesThePc : Prop :=
  (∀ w : Word, bits w 24 22 = 7 → decode Config.spec w = .ok .noop) ∧
  ∀ s : State, ∃ t, exec .noop s = .next t ∧ t.pc = s.pc + 1 ∧ RegsSame s t ∧ MemSame s t ∧ StatusSame s t

/-- R73: the same addition is signed and unsigned; it is exact where the exact sum fits, in either reading. -/
def Obligations.AddIsSignedAndUnsignedAddition : Prop :=
  ∀ (a b d : RegNum) (s : State), ∃ t, exec (.add a b d) s = .next t ∧
    (t.readReg d).toNat = ((s.readReg a).toNat + (s.readReg b).toNat) % 4294967296 ∧
    (-2147483648 ≤ signed (s.readReg a) + signed (s.readReg b) →
      signed (s.readReg a) + signed (s.readReg b) ≤ 2147483647 →
      signed (t.readReg d) = signed (s.readReg a) + signed (s.readReg b)) ∧
    (2147483647 < signed (s.readReg a) + signed (s.readReg b) →
      signed (t.readReg d) = signed (s.readReg a) + signed (s.readReg b) - 4294967296) ∧
    (signed (s.readReg a) + signed (s.readReg b) < -2147483648 →
      signed (t.readReg d) = signed (s.readReg a) + signed (s.readReg b) + 4294967296)

/-- The identities of R74: complement, AND, OR, negation and subtraction are sequences of `nand` and `add`. -/
def Obligations.NandAndAddBuildTheMissingOperations : Prop :=
  (∀ (a d : RegNum) (s : State), ∃ t, execAll [.nand a a d] s = .next t ∧ t.readReg d = ~~~(s.readReg a)) ∧
  (∀ (a b d : RegNum) (s : State), ∃ t, execAll [.nand a b d, .nand d d d] s = .next t ∧
    t.readReg d = s.readReg a &&& s.readReg b) ∧
  (∀ (a b d e : RegNum) (s : State), b ≠ d → d ≠ e →
    ∃ t, execAll [.nand a a d, .nand b b e, .nand d e d] s = .next t ∧ t.readReg d = s.readReg a ||| s.readReg b) ∧
  (∀ (a d one : RegNum) (s : State), one ≠ d → s.readReg one = 1 →
    ∃ t, execAll [.nand a a d, .add d one d] s = .next t ∧ t.readReg d = wrap32 (- signed (s.readReg a))) ∧
  (∀ (a b d one : RegNum) (s : State), a ≠ d → one ≠ d → s.readReg one = 1 →
    ∃ t, execAll [.nand b b d, .add a d d, .add d one d] s = .next t ∧
      t.readReg d = wrap32 (signed (s.readReg a) - signed (s.readReg b)))

/-! ### Whole-machine rules over all instructions -/

/-- R16 and R75: an instruction writes no register but the one the table gives it, and what it does is a function of the
registers the table has it read (with pc and memory): two states that agree on those give the same effect. -/
def Obligations.RegistersFollowTheReadWriteTable : Prop :=
  (∀ (i : Instr) (s t : State) (r : RegNum), exec i s = .next t → destRegOf i ≠ some r →
    t.readReg r = s.readReg r) ∧
  (∀ (i : Instr) (s u t v : State), exec i s = .next t → exec i u = .next v →
    (∀ r, r ∈ sourceRegs i → s.readReg r = u.readReg r) →
    s.pc = u.pc → s.mem = u.mem → s.run = u.run → s.icount = u.icount →
    t.pc = v.pc ∧ t.mem = v.mem ∧ t.run = v.run ∧ t.icount = v.icount ∧
    (Safe t → ∀ r, destRegOf i = some r → t.readReg r = v.readReg r))

/-- R33 over all instructions: memory changes at the one word a store addresses and nowhere else, and only `sw` stores. -/
def Obligations.MemoryChangesOnlyAtTheStoredWord : Prop :=
  ∀ (i : Instr) (s t : State), exec i s = .next t →
    (storeOf i s = none → t.mem = s.mem) ∧
    (∀ a v, storeOf i s = some (a, v) →
      (∃ regA regB off, i = .sw regA regB off ∧ (a : Int) = effectiveAddress s regA off ∧ v = s.readReg regB) ∧
      a ≤ 65535 ∧ ∀ a', a' ≠ a → t.mem.read a' = s.mem.read a')

/-- R23 and R86: the run status is written only by `halt` and by raising an error, and only `lw` and `sw` raise one. -/
def Obligations.OnlyHaltAndErrorsWriteTheRunStatus : Prop :=
  (∀ (i : Instr) (s t : State), exec i s = .next t →
    t.run = s.run ∨ (i = .halt ∧ t.run = .halted) ∨
    (∃ a b off, (i = .lw a b off ∨ i = .sw a b off) ∧
      t = s.raise (.memoryAddressOutOfRange (effectiveAddress s a off)))) ∧
  (∀ (c : Config) (s t : State), stepWith c s = .next t →
    (t.run = .halted ↔ limitReached c s = false ∧ fetchDecode c s = .ok .halt))

/-- R24 and R29 in this model's terms (the canonical form of notes/assumptions/3.md): canonical memories that read alike at
every address are equal data. -/
def Obligations.MemoriesThatReadAlikeAreEqual : Prop :=
  ∀ m m' : Memory, m.wf = true → m'.wf = true → (∀ a, m.read a = m'.read a) → m = m'

/-- R33: "a write of the same value twice leaves the same state as writing it once": the same `sw` again, from the same pc. -/
def Obligations.StoringTwiceIsStoringOnce : Prop :=
  ∀ (a b : RegNum) (off : Int) (s t : State), s.mem.wf = true → exec (.sw a b off) s = .next t → Safe t →
    exec (.sw a b off) (t.setPc s.pc) = .next t

/-! ### The step -/

/-- R110: where the word at the pc decodes to `i`, the step is `exec i`, then one more in `icount` unless it raised. -/
def Obligations.StepRunsTheDecodedInstruction : Prop :=
  ∀ (s : State) (i : Instr), s.run = .running → 0 ≤ signed s.pc → signed s.pc ≤ 65535 →
    decode Config.spec (s.mem.read (signed s.pc).toNat) = .ok i →
    ∃ t u, exec i s = .next t ∧ step s = .next u ∧
      u.x = t.x ∧ u.pc = t.pc ∧ u.mem = t.mem ∧ u.run = t.run ∧
      (Safe t → u.icount = s.icount + 1) ∧ (¬ Safe t → u.icount = s.icount)

/-- The model's own loading aid (notes/assumptions/9.md): after `withFetchWord` the very next step runs the instruction the
placed word decodes to, from any state with canonical memory. -/
def Obligations.PlacedWordIsTheNextInstruction : Prop :=
  ∀ (s : State) (nbits w : Nat) (i : Instr), s.mem.wf = true → decodeTableWord nbits w = some i →
    ∃ t, exec i (s.withFetchWord nbits w) = .next t ∧ step (s.withFetchWord nbits w) = .next t.complete

/-- R93: the checks of a step come in order: the limit, the fetch, the decode, the data address; and a step that passes them
raises nothing.
The order is the spec's inference from R110. -/
def Obligations.ChecksComeInOrder : Prop :=
  ∀ (c : Config) (s : State), s.run = .running →
    (limitReached c s = true → stepWith c s = .next (s.raise (.instructionLimitExceeded s.icount))) ∧
    (limitReached c s = false → OutOfRange (signed s.pc) →
      stepWith c s = .next (s.raise (.fetchAddressOutOfRange (signed s.pc)))) ∧
    (limitReached c s = false → ¬ OutOfRange (signed s.pc) →
      ∀ op, decode c (s.mem.read (signed s.pc).toNat) = .error (.unknownOpcode op) →
        stepWith c s = .next (s.raise (.unknownOpcodeAtRuntime op))) ∧
    (limitReached c s = false → ¬ OutOfRange (signed s.pc) →
      ∀ i, decode c (s.mem.read (signed s.pc).toNat) = .ok i →
        (∀ a b off, (i = .lw a b off ∨ i = .sw a b off) → OutOfRange (effectiveAddress s a off) →
          stepWith c s = .next (s.raise (.memoryAddressOutOfRange (effectiveAddress s a off)))) ∧
        ((∀ a b off, (i = .lw a b off ∨ i = .sw a b off) → ¬ OutOfRange (effectiveAddress s a off)) →
          ∃ t, stepWith c s = .next t ∧ Safe t))

/-- R91: a pc that no fetch accepts comes from sequential advance past 65535, a taken `beq` or a `jalr`; that instruction
completed and is counted, and the error belongs to the next step.
The spec's decision D5 (notes/assumptions/6.md). -/
def Obligations.OutOfRangeTargetFaultsAtTheNextFetch : Prop :=
  ∀ (s t : State) (i : Instr), fetchDecode Config.spec s = .ok i → step s = .next t → t.run = .running →
    OutOfRange (signed t.pc) →
    ((signed s.pc = 65535 ∧ signed t.pc = 65536) ∨
     (∃ a b off, i = .beq a b off ∧ s.readReg a = s.readReg b ∧ signed t.pc = signed s.pc + 1 + off) ∨
     (∃ a b, i = .jalr a b ∧ t.pc = s.readReg a)) ∧
    t.icount = s.icount + 1 ∧
    ∃ u, step t = .next u ∧ u.run = .faulted (.fetchAddressOutOfRange (signed t.pc)) t.pc ∧
      RegsSame t u ∧ MemSame t u ∧ u.pc = t.pc ∧ u.icount = t.icount

/-- R92: a step that raises an error changes the run status alone, which records the pc of the start of the step; the machine
takes no further step.
The spec's decision D9 (notes/assumptions/19.md); that a stopped state's step is a fault of this name is notes/assumptions/8.md. -/
def Obligations.ErrorsArePrecise : Prop :=
  ∀ (c : Config) (s t : State) (e : RunError) (addr : Word), stepWith c s = .next t → t.run = .faulted e addr →
    addr = s.pc ∧ t.x = s.x ∧ t.mem = s.mem ∧ t.pc = s.pc ∧ t.icount = s.icount ∧
    stepWith c t = .fault (.faultedHasNoStep e addr)

/-- R10: a step of a running machine completes running, completes a `halt`, or raises; a state that is not `Running` has no
next step. -/
def Obligations.StepHasThreeOutcomes : Prop :=
  (∀ (c : Config) (s : State), s.run = .running → ∃ t, stepWith c s = .next t ∧
    ((t.run = .running ∧ t.icount = s.icount + 1) ∨
     (t.run = .halted ∧ fetchDecode c s = .ok .halt ∧ t.icount = s.icount + 1) ∨
     (∃ e, t = s.raise e))) ∧
  (∀ (c : Config) (s t : State), s.run ≠ .running → stepWith c s ≠ .next t)

/-- R97 and D8: a stopped machine never moves on. -/
def Obligations.StoppedMachineStaysAsItIs : Prop :=
  ∀ (c : Config) (n : Nat) (s : State), s.run ≠ .running → runWith c n s = s

/-- R25: `icount` is the number of steps completed: a run of `n` steps that raises no error adds `n`.
The spec's decision D16 (notes/assumptions/10.md). -/
def Obligations.CountIsTheNumberOfCompletedSteps : Prop :=
  ∀ (c : Config) (n : Nat) (s : State), s.run = .running →
    (∀ k, k < n → (runWith c k s).run = .running) → Safe (runWith c n s) →
    (runWith c n s).icount = s.icount + n

/-- R98: `MAX_STEPS` is tested before the fetch, and where it is absent or not reached the step is the unlimited one.
The place of the test is the spec's decision D10. -/
def Obligations.LimitIsTestedBeforeTheFetch : Prop :=
  (∀ (c : Config) (m : Nat) (s : State), c.maxSteps = some m → s.run = .running → m ≤ s.icount →
    ∃ t, stepWith c s = .next t ∧ t.run = .faulted (.instructionLimitExceeded s.icount) s.pc ∧
      t.x = s.x ∧ t.mem = s.mem ∧ t.pc = s.pc ∧ t.icount = s.icount) ∧
  (∀ (c : Config) (m : Nat) (s : State), c.maxSteps = some m → s.icount < m →
    stepWith c s = stepWith { c with maxSteps := none } s) ∧
  (∀ (c : Config) (m n : Nat) (s : State), c.maxSteps = some m → s.icount ≤ m → (runWith c n s).icount ≤ m)

/-- R98: "a claim proved without the limit holds under any limit the run does not reach, and a run the limit cuts short has
executed a prefix of the unlimited run".
The place of the test is the spec's decision D10. -/
def Obligations.LimitedRunIsAPrefixOfTheUnlimitedRun : Prop :=
  ∀ (c : Config) (m n : Nat) (s : State), c.maxSteps = some m →
    (s.icount + n ≤ m → runWith c n s = runWith { c with maxSteps := none } n s) ∧
    ∃ k, k ≤ n ∧
      (runWith c n s = runWith { c with maxSteps := none } k s ∨
       runWith c n s = (runWith { c with maxSteps := none } k s).raise
         (.instructionLimitExceeded (runWith { c with maxSteps := none } k s).icount))

/-- R18: how each instruction advances the pc, in integers: no pc addition overflows.
The ranges are the spec's inference from R17 and R48. -/
def Obligations.PcFollowsTheAdvanceTable : Prop :=
  ∀ (c : Config) (s t : State) (i : Instr), s.run = .running → limitReached c s = false →
    fetchDecode c s = .ok i → stepWith c s = .next t →
    0 ≤ signed s.pc ∧ signed s.pc ≤ 65535 ∧
    (¬ Safe t → t.pc = s.pc) ∧
    (Safe t →
      match i with
      | .add _ _ _ => signed t.pc = signed s.pc + 1
      | .nand _ _ _ => signed t.pc = signed s.pc + 1
      | .lw _ _ _ => signed t.pc = signed s.pc + 1
      | .sw _ _ _ => signed t.pc = signed s.pc + 1
      | .beq a b off =>
          if s.readReg a = s.readReg b
          then signed t.pc = signed s.pc + 1 + off ∧ -32767 ≤ signed t.pc ∧ signed t.pc ≤ 98303
          else signed t.pc = signed s.pc + 1
      | .jalr a _ => t.pc = s.readReg a
      | .halt => signed t.pc = signed s.pc + 1 ∧ t.run = .halted
      | .noop => signed t.pc = signed s.pc + 1)

/-- R81: the assembler's label offset and the hardware's branch agree: a taken `beq` reaches the symbol's address.
The assembler is modelled beside the machine (R65). -/
def Obligations.TakenBranchReachesItsSymbol : Prop :=
  (∀ (sym : SymbolTable) (label : Token) (target address : Nat), literalValue label = none →
    sym.addressOf label = some target →
    branchOperand sym address label = .ok ((target : Int) - ((address : Int) + 1))) ∧
  (∀ (a b : RegNum) (target : Nat) (s : State), 0 ≤ signed s.pc → signed s.pc ≤ 65535 → target ≤ 65535 →
    s.readReg a = s.readReg b →
    ∃ t, exec (.beq a b ((target : Int) - (signed s.pc + 1))) s = .next t ∧ signed t.pc = target)

/-- R56: with the full table and the masked decode no word raises `UnknownOpcodeAtRuntime`; with a table that lacks the
opcode, or under `DECODE_UPPER_BITS = fault` with one of bits 31 to 25 set, the step raises it.
The masked decode is the spec's decision D2, and its alternative is the other value of DECODE_UPPER_BITS. -/
def Obligations.UnknownOpcodeNeedsAnotherConfiguration : Prop :=
  (∀ (c : Config) (w : Word) (e : DecodeError), c.upperBits = .ignore →
    (∀ op, c.opcodeMap.mnemonicOf op ≠ none) → decode c w ≠ .error e) ∧
  (∀ op, Config.spec.opcodeMap.mnemonicOf op ≠ none) ∧
  (∀ (s t : State) (op : Int) (addr : Word), step s = .next t →
    t.run ≠ .faulted (.unknownOpcodeAtRuntime op) addr) ∧
  (∀ (c : Config) (s : State) (w : Word), c.upperBits = .ignore → s.run = .running → limitReached c s = false →
    fetch s (signed s.pc) = .ok w → c.opcodeMap.mnemonicOf (opcodeField w) = none →
    stepWith c s = .next (s.raise (.unknownOpcodeAtRuntime (bits w 24 22)))) ∧
  (∀ (c : Config) (s : State) (w : Word), c.upperBits = .fault → s.run = .running → limitReached c s = false →
    fetch s (signed s.pc) = .ok w → bits w 31 25 ≠ 0 →
    ∃ op, stepWith c s = .next (s.raise (.unknownOpcodeAtRuntime op)))

/-! ### Invariants -/

/-- Every step keeps the invariant: memory canonical, the run status backed by the state it stands in, and the count within
the limit (R13, R23, R88, R92, R98). -/
def Obligations.StepKeepsTheInvariant : Prop :=
  (∀ (s t : State), Inv Config.spec s → step s = .next t → Inv Config.spec t) ∧
  (∀ (c : Config) (s t : State), Inv c s → stepWith c s = .next t → Inv c t)

/-- Reset satisfies the invariant (R26). -/
def Obligations.ResetSatisfiesTheInvariant : Prop :=
  ∀ c : Config, Inv c State.reset

/-- Every image that reset accepts gives a state that satisfies the invariant (R106, R107). -/
def Obligations.EveryLoadedImageSatisfiesTheInvariant : Prop :=
  ∀ (c : Config) (image : List Int) (s : State), resetWith image = .next s → Inv c s

/-! ### Reset and the host -/

/-- R106 and R26: reset zeroes the registers, places the image from address 0, zeroes the rest of memory, starts at 0. -/
def Obligations.ResetLoadsTheImage : Prop :=
  ∀ image : List Int, image.length ≤ 65536 → (∀ v, v ∈ image → -2147483648 ≤ v ∧ v ≤ 2147483647) →
    ∃ s, resetWith image = .next s ∧ (∀ r, s.readReg r = 0) ∧ s.pc = 0 ∧ s.run = .running ∧ s.icount = 0 ∧
      (∀ (a : Nat) (v : Int), image[a]? = some v → s.mem.read a = wrap32 v) ∧
      (∀ a, image.length ≤ a → s.mem.read a = 0)

/-- R107: exactly the images that are too long or hold a value outside 32 bits are refused; the empty one is allowed, and from
it the machine executes `add 0 0 0` from each address 0 to 65535, changing no register, and then faults.
The conditions are the spec's decision D11; the form of the refusal is notes/assumptions/12.md. -/
def Obligations.ResetRefusesTheImagesItCannotHold : Prop :=
  (∀ image : List Int, (∃ r, resetWith image = .refused r) ↔
    (65536 < image.length ∨ ∃ v, v ∈ image ∧ (v < -2147483648 ∨ 2147483647 < v))) ∧
  (∀ (image : List Int) (r : Fault), resetWith image ≠ .fault r) ∧
  resetWith [] = .next State.reset ∧
  (∀ n, n ≤ 65536 →
    runWith Config.spec n State.reset = { State.reset with pc := BitVec.ofNat 32 n, icount := n }) ∧
  (∀ n, 65536 < n → runWith Config.spec n State.reset =
    ({ State.reset with pc := 65536, icount := 65536 } : State).raise (.fetchAddressOutOfRange 65536))

/-- R103: one observation for each step taken, of the state at its start, and one of the final state. The step from the
state after `j` steps is taken exactly when that state is `Running`; the trace has no entry beside these. -/
def Obligations.TraceShowsEachStateBeforeItsStep : Prop :=
  ∀ (c : Config) (n : Nat) (s : State),
    (∀ k, k ≤ n → (∀ j, j < k → (runWith c j s).run = .running) →
      (traceWith c n s)[k]? = some (runWith c k s).observe ∧
      (k = n ∨ (runWith c k s).run ≠ .running → (traceWith c n s).length = k + 1)) ∧
    (traceWith c n s).getLast? = some (runWith c n s).observe

/-! ### Memory over a run -/

/-- R39: after any run, each word is the one the most recent store to it wrote, or the word it held at the start. -/
def Obligations.MemoryHoldsTheMostRecentStore : Prop :=
  ∀ (c : Config) (n : Nat) (s : State), s.mem.wf = true →
    ∀ a, (runWith c n s).mem.read a = lastStoreTo a (s.mem.read a) (storesOf c n s)

/-- R41 and R115: a store is what the next fetch from its address reads, also when that is the very next instruction. -/
def Obligations.StoreIsSeenByTheNextFetch : Prop :=
  ∀ (s : State) (a b : RegNum) (off : Int), s.run = .running → s.mem.wf = true →
    fetchDecode Config.spec s = .ok (.sw a b off) → ¬ OutOfRange (effectiveAddress s a off) →
    ∃ t, step s = .next t ∧ t.run = .running ∧ fetch t (effectiveAddress s a off) = .ok (s.readReg b) ∧
      (effectiveAddress s a off = signed s.pc + 1 →
        ∃ i u, decode Config.spec (s.readReg b) = .ok i ∧ exec i t = .next u ∧ step t = .next u.complete)

/-- R55: a program that runs past its last instruction executes `add 0 0 0` from each zero cell until pc reaches 65536 and
the fetch faults. Each of those steps doubles `x[0]`. -/
def Obligations.ZeroCellsRunUntilTheFetchFaults : Prop :=
  ∀ (n : Nat) (s : State), s.run = .running → 0 ≤ signed s.pc → signed s.pc + n = 65536 →
    (∀ a : Nat, signed s.pc ≤ a → a ≤ 65535 → s.mem.read a = 0) →
    ∃ t, runWith Config.spec n s = t ∧ t.run = .running ∧ t.pc = 65536 ∧ t.mem = s.mem ∧
      t.icount = s.icount + n ∧ t.readReg 0 = s.readReg 0 * BitVec.ofNat 32 (2 ^ n) ∧ RegsSameBut 0 s t ∧
      runWith Config.spec (n + 1) s = t.raise (.fetchAddressOutOfRange 65536)

/-- R80 and R113: a `beq` of a register with itself and offset -1 loops for ever: a legal infinite execution. -/
def Obligations.BranchToItselfNeverEnds : Prop :=
  ∀ (n : Nat) (s : State) (r : RegNum), s.run = .running → fetchDecode Config.spec s = .ok (.beq r r (-1)) →
    runWith Config.spec n s = { s with icount := s.icount + n }

/-! ### The assembler -/

/-- S6 and R61: every label's address is the number of words the lines before it yield. -/
def Obligations.LabelAddressesAreWordIndices : Prop :=
  ∀ (c : Config) (before after : List (List Token)) (line : List Token) (label : Token) (sym : SymbolTable),
    pass1 c (before ++ line :: after) 0 [] = .ok sym → lineLabel c line = some label →
    sym.addressOf label = some (wordLines c before).length

/-- R60 and S6: a label declared twice is the fatal error `DuplicateLabel`: nothing is assembled. -/
def Obligations.DuplicateLabelIsFatal : Prop :=
  ∀ (c : Config) (before between after : List (List Token)) (line line' : List Token) (label : Token),
    lineLabel c line = some label → lineLabel c line' = some label →
    ∃ (dup : Token) (address : Nat), assembleLines c (before ++ line :: between ++ line' :: after) =
      .error { error := .duplicateLabel dup, address := address }

/-- S6: assembling and then decoding recovers each line's instruction, and a `.fill` word its value; one word a line.
The syntax rests on the spec's decisions D15, D18 and D19 and on notes/assumptions/15.md and 24.md. -/
def Obligations.AssembledWordsDecodeToTheirStatements : Prop :=
  ∀ (c : Config) (lines : List (List Token)) (sym : SymbolTable) (image : List Word), c.wf = true →
    pass1 c lines 0 [] = .ok sym → assembleLines c lines = .ok image →
    image.length = (wordLines c lines).length ∧
    ∀ (k : Nat) (w : Word) (body : List Token), image[k]? = some w → (wordLines c lines)[k]? = some body →
      ∃ st, statementOf c sym k body = .ok st ∧
        (∀ i, st = .instr i → decode c w = .ok i) ∧ (∀ v, st = .fill v → signed w = v)
end

