-- ==== Sys2Proof/Laws/Assembler.lean ====
section
/-! SUPPORT. The small laws of the assembler's two passes. -/

namespace Sys2Proof.Machine

/-- Looking a label up in a table with one more entry. -/
theorem addressOf_cons (l x : Token) (a : Nat) (sym : SymbolTable) :
    SymbolTable.addressOf ((l, a) :: sym) x = if l = x then some a else sym.addressOf x := rfl

/-- A line adds a word exactly when it has a body. -/
theorem wordLines_cons (c : Config) (line : List Token) (rest : List (List Token)) :
    wordLines c (line :: rest) =
      if lineBody c line = [] then wordLines c rest else lineBody c line :: wordLines c rest := by
  simp only [wordLines, List.map_cons, List.filter_cons]
  by_cases h : lineBody c line = []
  · simp [h]
  · have hb : (!(lineBody c line).isEmpty) = true := by simpa using h
    rw [if_neg h, if_pos hb]

/-- Pass 1 never loses a label it has. -/
theorem pass1_keeps {c : Config} {lines : List (List Token)} {address : Nat} {sym sym' : SymbolTable} {x : Token} {a : Nat}
    (h : pass1 c lines address sym = .ok sym') (hx : sym.addressOf x = some a) : sym'.addressOf x = some a := by
  induction lines generalizing address sym with
  | nil => cases h; exact hx
  | cons line rest ih =>
    rw [pass1] at h
    split at h
    · exact ih h hx
    · next label _ =>
      split at h
      · cases h
      · next hnone =>
        refine ih h ?_
        rw [addressOf_cons, if_neg]
        · exact hx
        · rintro rfl; rw [hx] at hnone; cases hnone

/-- The one error of pass 1. -/
theorem pass1_error {c : Config} {lines : List (List Token)} {address : Nat} {sym : SymbolTable} {f : AsmFailure}
    (h : pass1 c lines address sym = .error f) : ∃ label a, f = { error := .duplicateLabel label, address := a } := by
  induction lines generalizing address sym with
  | nil => cases h
  | cons line rest ih =>
    rw [pass1] at h
    split at h
    · exact ih h
    · split at h
      · exact ⟨_, _, (Except.error.inj h).symm⟩
      · exact ih h

end Sys2Proof.Machine
end

