-- ==== Sys2Proof/Laws/Decode.lean ====
section
/-! SUPPORT. The decoder's fields as numbers, the table's lookups, and what an encode or a decode that succeeds says. -/

namespace Sys2Proof

open Sys2Proof.Machine

/-! ### Fields as numbers -/

theorem bits_eq_extract (w : Word) (hi lo : Nat) : bits w hi lo = (w.extractLsb' lo (hi + 1 - lo)).toNat := by
  simp [bits, BitVec.extractLsb'_toNat, Nat.shiftRight_eq_div_pow]

theorem opcodeField_toNat (w : Word) : (opcodeField w).toNat = bits w 24 22 := (bits_eq_extract w 24 22).symm
theorem regAField_val (w : Word) : (regAField w).val = bits w 21 19 := (bits_eq_extract w 21 19).symm
theorem regBField_val (w : Word) : (regBField w).val = bits w 18 16 := (bits_eq_extract w 18 16).symm
theorem destRegField_val (w : Word) : (destRegField w).val = bits w 2 0 := (bits_eq_extract w 2 0).symm
theorem offsetField_toNat (w : Word) : (offsetField w).toNat = bits w 15 0 := (bits_eq_extract w 15 0).symm
theorem upperBitsField_toNat (w : Word) : (upperBitsField w).toNat = bits w 31 25 := (bits_eq_extract w 31 25).symm

/-- `sext_32` by the size of the field. -/
theorem signExtend16_toNat (v : BitVec 16) :
    signExtend16 v = if 32768 ≤ v.toNat then (v.toNat : Int) - 65536 else v.toNat := by
  have h : v.getLsbD 15 = decide (32768 ≤ v.toNat) := by
    rw [show (15 : Nat) = 16 - 1 from rfl, ← BitVec.msb_eq_getLsbD_last, BitVec.msb_eq_decide]
  simp only [signExtend16, h, decide_eq_true_eq]

/-! ### The table -/

/-- A mnemonic looked up stands in the table. -/
theorem mnemonicOf_mem {map : OpcodeMap} {op : BitVec 3} {m : Mnemonic} (h : map.mnemonicOf op = some m) :
    (op, m) ∈ map := by
  induction map with
  | nil => cases h
  | cons p rest ih =>
    obtain ⟨o, m'⟩ := p
    rw [OpcodeMap.mnemonicOf] at h
    split at h
    · next ho => cases h; subst ho; simp
    · exact List.mem_cons_of_mem _ (ih h)

/-- An opcode looked up stands in the table. -/
theorem opcodeOf_mem {map : OpcodeMap} {op : BitVec 3} {m : Mnemonic} (h : map.opcodeOf m = some op) :
    (op, m) ∈ map := by
  induction map with
  | nil => cases h
  | cons p rest ih =>
    obtain ⟨o, m'⟩ := p
    rw [OpcodeMap.opcodeOf] at h
    split at h
    · next ho => cases h; subst ho; simp
    · exact List.mem_cons_of_mem _ (ih h)

/-- Where no opcode is listed twice, a row is the answer for its opcode. -/
theorem mnemonicOf_of_mem {map : OpcodeMap} {op : BitVec 3} {m : Mnemonic} (hn : (map.map Prod.fst).Nodup)
    (h : (op, m) ∈ map) : map.mnemonicOf op = some m := by
  induction map with
  | nil => cases h
  | cons p rest ih =>
    obtain ⟨o, m'⟩ := p
    simp only [List.map_cons, List.nodup_cons] at hn
    rw [OpcodeMap.mnemonicOf]
    rcases List.mem_cons.mp h with h | h
    · cases h; simp
    · rw [if_neg]
      · exact ih hn.2 h
      · rintro rfl; exact hn.1 (List.mem_map.mpr ⟨_, h, rfl⟩)

/-- Where no mnemonic is listed twice, a row is the answer for its mnemonic. -/
theorem opcodeOf_of_mem {map : OpcodeMap} {op : BitVec 3} {m : Mnemonic} (hn : (map.map Prod.snd).Nodup)
    (h : (op, m) ∈ map) : map.opcodeOf m = some op := by
  induction map with
  | nil => cases h
  | cons p rest ih =>
    obtain ⟨o, m'⟩ := p
    simp only [List.map_cons, List.nodup_cons] at hn
    rw [OpcodeMap.opcodeOf]
    rcases List.mem_cons.mp h with h | h
    · cases h; simp
    · rw [if_neg]
      · exact ih hn.2 h
      · rintro rfl; exact hn.1 (List.mem_map.mpr ⟨_, h, rfl⟩)

/-- The two parts of a one-to-one table. -/
theorem wf_nodup {c : Config} (h : c.wf = true) :
    (c.opcodeMap.map Prod.fst).Nodup ∧ (c.opcodeMap.map Prod.snd).Nodup := by
  simp only [Config.wf, Bool.and_eq_true, decide_eq_true_eq] at h
  exact h.1

/-! ### Encodings as numbers -/

theorem append_toNat {n m : Nat} (x : BitVec n) (y : BitVec m) : (x ++ y).toNat = x.toNat * 2 ^ m + y.toNat := by
  rw [BitVec.toNat_append, ← Nat.shiftLeft_add_eq_or_of_lt y.isLt, Nat.shiftLeft_eq]

theorem regBits_toNat (r : RegNum) : (regBits r).toNat = r.val := by simp [regBits]

theorem encodeR_toNat (op : BitVec 3) (a b d : RegNum) :
    (encodeR op a b d).toNat = op.toNat * 2 ^ 22 + a.val * 2 ^ 19 + b.val * 2 ^ 16 + d.val := by
  simp only [encodeR, append_toNat, regBits_toNat]; simp; omega

theorem encodeI_toNat (op : BitVec 3) (a b : RegNum) (off : Int) :
    (encodeI op a b off).toNat = op.toNat * 2 ^ 22 + a.val * 2 ^ 19 + b.val * 2 ^ 16 + (off % 65536).toNat := by
  simp only [encodeI, append_toNat, regBits_toNat, BitVec.toNat_ofInt]; simp; omega

theorem encodeJ_toNat (op : BitVec 3) (a b : RegNum) :
    (encodeJ op a b).toNat = op.toNat * 2 ^ 22 + a.val * 2 ^ 19 + b.val * 2 ^ 16 := by
  simp only [encodeJ, append_toNat, regBits_toNat]; simp; omega

theorem encodeO_toNat (op : BitVec 3) : (encodeO op).toNat = op.toNat * 2 ^ 22 := by
  simp only [encodeO, append_toNat]; simp

/-! ### What succeeds -/

/-- An instruction that encodes is well formed, its mnemonic is in the table, and its word is its fields. -/
theorem encode_ok {c : Config} {i : Instr} {w : Word} (h : encode c i = .ok w) :
    ∃ op, c.opcodeMap.opcodeOf i.mnemonic = some op ∧ i.wellFormed = true ∧ w = encodeFields op i := by
  unfold encode at h
  split at h
  · cases h
  · next op hop =>
    split at h
    · exact ⟨op, hop, by assumption, (Except.ok.inj h).symm⟩
    · cases h

/-- A word whose upper bits do not matter decodes by its opcode's row. -/
theorem decode_of_mnemonicOf {c : Config} {w : Word} {m : Mnemonic}
    (hu : c.upperBits = .ignore ∨ upperBitsField w = 0) (hm : c.opcodeMap.mnemonicOf (opcodeField w) = some m) :
    decode c w = .ok (decodeFields m w) := by
  have h : ¬ (c.upperBits = .fault ∧ upperBitsField w ≠ 0) := by
    rintro ⟨hf, hne⟩
    rcases hu with hu | hu
    · rw [hu] at hf; cases hf
    · exact hne hu
  rw [decode, if_neg h, hm]

/-- The mnemonic of decoded fields. -/
@[simp] theorem decodeFields_mnemonic (m : Mnemonic) (w : Word) : (decodeFields m w).mnemonic = m := by
  cases m <;> rfl

/-- A decoded instruction is the fields of its opcode's row. -/
theorem decode_ok {c : Config} {w : Word} {i : Instr} (h : decode c w = .ok i) :
    ∃ m, c.opcodeMap.mnemonicOf (opcodeField w) = some m ∧ i = decodeFields m w := by
  unfold decode at h
  split at h
  · cases h
  · split at h
    · cases h
    · next m hm => exact ⟨m, hm, (Except.ok.inj h).symm⟩

end Sys2Proof
end

