-- ==== Sys2Proof/Laws/State.lean ====
section
/-! SUPPORT. One lemma per field and per update of State, so that no later proof unfolds a record update. -/

namespace Sys2Proof.Machine

section
variable (s : State) (i j : RegNum) (v t : Word) (e : RunError)

@[simp] theorem State.readReg_writeReg_same : (s.writeReg i v).readReg i = v := by
  simp [State.readReg, State.writeReg]

@[simp] theorem State.readReg_writeReg_other (h : j ≠ i) : (s.writeReg i v).readReg j = s.readReg j := by
  have h' : (i : Nat) ≠ (j : Nat) := fun e => h (Fin.ext e.symm)
  simp [State.readReg, State.writeReg, h']

theorem State.readReg_writeReg :
    (s.writeReg i v).readReg j = if j = i then v else s.readReg j := by
  by_cases h : j = i
  · subst h; simp
  · simp [h]

@[simp] theorem State.writeReg_pc : (s.writeReg i v).pc = s.pc := rfl
@[simp] theorem State.writeReg_mem : (s.writeReg i v).mem = s.mem := rfl
@[simp] theorem State.writeReg_run : (s.writeReg i v).run = s.run := rfl
@[simp] theorem State.writeReg_icount : (s.writeReg i v).icount = s.icount := rfl

@[simp] theorem State.setPc_pc : (s.setPc t).pc = t := rfl
@[simp] theorem State.setPc_x : (s.setPc t).x = s.x := rfl
@[simp] theorem State.setPc_mem : (s.setPc t).mem = s.mem := rfl
@[simp] theorem State.setPc_run : (s.setPc t).run = s.run := rfl
@[simp] theorem State.setPc_icount : (s.setPc t).icount = s.icount := rfl
@[simp] theorem State.readReg_setPc : (s.setPc t).readReg j = s.readReg j := rfl

@[simp] theorem State.advance_pc : s.advance.pc = s.pc + 1 := rfl
@[simp] theorem State.advance_x : s.advance.x = s.x := rfl
@[simp] theorem State.advance_mem : s.advance.mem = s.mem := rfl
@[simp] theorem State.advance_run : s.advance.run = s.run := rfl
@[simp] theorem State.advance_icount : s.advance.icount = s.icount := rfl
@[simp] theorem State.readReg_advance : s.advance.readReg j = s.readReg j := rfl

@[simp] theorem State.raise_x : (s.raise e).x = s.x := rfl
@[simp] theorem State.raise_pc : (s.raise e).pc = s.pc := rfl
@[simp] theorem State.raise_mem : (s.raise e).mem = s.mem := rfl
@[simp] theorem State.raise_run : (s.raise e).run = .faulted e s.pc := rfl
@[simp] theorem State.raise_icount : (s.raise e).icount = s.icount := rfl
@[simp] theorem State.readReg_raise : (s.raise e).readReg j = s.readReg j := rfl

@[simp] theorem State.halt_x : s.halt.x = s.x := rfl
@[simp] theorem State.halt_pc : s.halt.pc = s.pc := rfl
@[simp] theorem State.halt_mem : s.halt.mem = s.mem := rfl
@[simp] theorem State.halt_run : s.halt.run = .halted := rfl
@[simp] theorem State.halt_icount : s.halt.icount = s.icount := rfl
@[simp] theorem State.readReg_halt : s.halt.readReg j = s.readReg j := rfl

@[simp] theorem State.complete_x : s.complete.x = s.x := by
  unfold State.complete; split <;> rfl
@[simp] theorem State.complete_pc : s.complete.pc = s.pc := by
  unfold State.complete; split <;> rfl
@[simp] theorem State.complete_mem : s.complete.mem = s.mem := by
  unfold State.complete; split <;> rfl
@[simp] theorem State.complete_run : s.complete.run = s.run := by
  unfold State.complete; split <;> rfl
@[simp] theorem State.readReg_complete : s.complete.readReg j = s.readReg j := by
  simp [State.readReg]

/-- A step that raises no error counts one. -/
theorem State.complete_icount_of_not_faulted (h : ∀ e a, s.run ≠ .faulted e a) :
    s.complete.icount = s.icount + 1 := by
  unfold State.complete
  split
  · rfl
  · rfl
  · next e a hr => exact absurd hr (h e a)

/-- A step that raises an error counts nothing, and changes nothing more. -/
theorem State.complete_of_faulted {e : RunError} {a : Word} (h : s.run = .faulted e a) : s.complete = s := by
  unfold State.complete; rw [h]

@[simp] theorem State.complete_raise : (s.raise e).complete = s.raise e := rfl

@[simp] theorem State.reset_readReg : State.reset.readReg j = 0 := by
  simp [State.readReg, State.reset]

end

end Sys2Proof.Machine
end

