-- ==== Sys2Proof/Laws/Memory.lean ====
section
/-! SUPPORT. The laws of the word array: a read after a write, and that every operation keeps the canonical form. -/

namespace Sys2Proof.Machine

/-- The canonical form of a listed cell and the rest, in parts. -/
theorem Memory.wf_cons {a : Nat} {v : Word} {rest : Memory} :
    Memory.wf ((a, v) :: rest) = true ↔
      a < memWords ∧ v ≠ 0 ∧ (∀ cell ∈ rest, a < cell.1) ∧ Memory.wf rest = true := by
  simp only [Memory.wf, Bool.and_eq_true, decide_eq_true_eq, List.all_eq_true]
  tauto

/-- An address below every listed one reads as 0. -/
theorem Memory.read_eq_zero_of_below {m : Memory} {a : Nat} (h : ∀ cell ∈ m, a < cell.1) : m.read a = 0 := by
  induction m with
  | nil => rfl
  | cons cell rest ih =>
    obtain ⟨b, u⟩ := cell
    have hb : a < b := h (b, u) (by simp)
    rw [Memory.read, if_neg (by omega)]
    exact ih fun d hd => h d (List.mem_cons_of_mem _ hd)

/-- A write leaves every other address alone. -/
theorem Memory.read_write_other {m : Memory} {a b : Nat} {v : Word} (h : b ≠ a) :
    (m.write a v).read b = m.read b := by
  induction m with
  | nil =>
    rw [Memory.write]
    split
    · rfl
    · exact if_neg h.symm
  | cons cell rest ih =>
    obtain ⟨d, u⟩ := cell
    rw [Memory.write]
    split
    · split
      · rfl
      · rw [Memory.read, if_neg h.symm]
    · split
      · next had =>
        subst had
        split <;> simp [Memory.read, h.symm]
      · rw [Memory.read, Memory.read, ih]

/-- A read after a write to the same address gives the word written. -/
theorem Memory.read_write_same {m : Memory} {a : Nat} {v : Word} (h : m.wf = true) :
    (m.write a v).read a = v := by
  induction m with
  | nil =>
    rw [Memory.write]
    split
    · next hv => rw [hv]; rfl
    · rw [Memory.read, if_pos rfl]
  | cons cell rest ih =>
    obtain ⟨d, u⟩ := cell
    obtain ⟨-, -, hlt, hrest⟩ := Memory.wf_cons.mp h
    rw [Memory.write]
    split
    · next had =>
      split
      · next hv =>
        rw [hv, Memory.read, if_neg (by omega)]
        exact Memory.read_eq_zero_of_below fun cell hc => lt_trans had (hlt cell hc)
      · rw [Memory.read, if_pos rfl]
    · split
      · next had =>
        subst had
        split
        · next hv => rw [hv]; exact Memory.read_eq_zero_of_below hlt
        · rw [Memory.read, if_pos rfl]
      · next hda => rw [Memory.read, if_neg (Ne.symm hda), ih hrest]

/-- A cell of a written array was there before, or is the one written. -/
theorem Memory.mem_write {m : Memory} {a : Nat} {v : Word} {cell : Nat × Word} (h : cell ∈ m.write a v) :
    cell ∈ m ∨ cell = (a, v) := by
  induction m with
  | nil => by_cases hv : v = 0 <;> simp_all [Memory.write]
  | cons d rest ih =>
    obtain ⟨d, u⟩ := d
    rw [Memory.write] at h
    split at h
    · split at h
      · exact .inl h
      · rcases List.mem_cons.mp h with rfl | h
        · exact .inr rfl
        · exact .inl h
    · split at h
      · split at h
        · exact .inl (List.mem_cons_of_mem _ h)
        · rcases List.mem_cons.mp h with rfl | h
          · exact .inr rfl
          · exact .inl (List.mem_cons_of_mem _ h)
      · rcases List.mem_cons.mp h with rfl | h
        · exact .inl (by simp)
        · rcases ih h with h | h
          · exact .inl (List.mem_cons_of_mem _ h)
          · exact .inr h

/-- A write inside the address space keeps the canonical form. -/
theorem Memory.wf_write {m : Memory} {a : Nat} {v : Word} (h : m.wf = true) (ha : a < memWords) :
    (m.write a v).wf = true := by
  induction m with
  | nil =>
    rw [Memory.write]
    split
    · rfl
    · next hv => exact Memory.wf_cons.mpr ⟨ha, hv, by simp, rfl⟩
  | cons cell rest ih =>
    obtain ⟨d, u⟩ := cell
    obtain ⟨hd, hu, hlt, hrest⟩ := Memory.wf_cons.mp h
    rw [Memory.write]
    split
    · next had =>
      split
      · exact h
      · next hv =>
        refine Memory.wf_cons.mpr ⟨ha, hv, ?_, h⟩
        intro cell hc
        rcases List.mem_cons.mp hc with rfl | hc
        · exact had
        · exact lt_trans had (hlt cell hc)
    · split
      · next had =>
        subst had
        split
        · exact hrest
        · next hv => exact Memory.wf_cons.mpr ⟨ha, hv, hlt, hrest⟩
      · next hnlt hne =>
        refine Memory.wf_cons.mpr ⟨hd, hu, ?_, ih hrest⟩
        intro cell hc
        rcases Memory.mem_write hc with hc | rfl
        · exact hlt cell hc
        · omega

/-- The empty memory of reset is canonical. -/
theorem Memory.wf_nil : Memory.wf [] = true := rfl

/-- The empty memory of reset reads as 0 everywhere. -/
@[simp] theorem Memory.read_nil (a : Nat) : Memory.read [] a = 0 := rfl

/-- Loading words inside the address space keeps the canonical form. -/
theorem Memory.wf_load {words : List Word} {m : Memory} {a : Nat} (h : m.wf = true)
    (ha : a + words.length ≤ memWords) : (m.load a words).wf = true := by
  induction words generalizing m a with
  | nil => exact h
  | cons w rest ih =>
    simp only [List.length_cons] at ha
    exact ih (Memory.wf_write h (by omega)) (by omega)

/-- Reset's memory is canonical. -/
theorem State.reset_mem_wf : State.reset.mem.wf = true := rfl

end Sys2Proof.Machine
end

