-- ==== Sys2Proof/Laws/Ops.lean ====
section
/-! SUPPORT. What each shared operation can do, said once: the access primitives, an attempted effect, a placed word. -/

namespace Sys2Proof.Machine

/-- An address in range is a cell's index. -/
theorem toNat_lt_of_inRange {a : Int} (h : ¬ OutOfRange a) : a.toNat < memWords := by
  unfold OutOfRange at h; unfold memWords; omega

theorem memRead_outOfRange {s : State} {a : Int} (h : OutOfRange a) :
    memRead s a = .error (.memoryAddressOutOfRange a) := if_pos h

theorem memRead_inRange {s : State} {a : Int} (h : ¬ OutOfRange a) :
    memRead s a = .ok (s.mem.read a.toNat) := if_neg h

theorem memWrite_outOfRange {s : State} {a : Int} {v : Word} (h : OutOfRange a) :
    memWrite s a v = .error (.memoryAddressOutOfRange a) := if_pos h

theorem memWrite_inRange {s : State} {a : Int} {v : Word} (h : ¬ OutOfRange a) :
    memWrite s a v = .ok { s with mem := s.mem.write a.toNat v } := if_neg h

theorem fetch_outOfRange {s : State} {a : Int} (h : OutOfRange a) :
    fetch s a = .error (.fetchAddressOutOfRange a) := if_pos h

theorem fetch_inRange {s : State} {a : Int} (h : ¬ OutOfRange a) : fetch s a = .ok (s.mem.read a.toNat) :=
  if_neg h

/-- A fetch reads memory alone. -/
theorem fetch_congr {s t : State} (h : t.mem = s.mem) (a : Int) : fetch t a = fetch s a := by
  unfold fetch; rw [h]

/-- Fetch and decode read memory and the pc alone. -/
theorem fetchDecode_congr {c : Config} {s t : State} (hm : t.mem = s.mem) (hp : t.pc = s.pc) :
    fetchDecode c t = fetchDecode c s := by
  unfold fetchDecode; rw [hp, fetch_congr hm]

/-- A decoded instruction was fetched from an address in range. -/
theorem fetchDecode_ok {c : Config} {s : State} {i : Instr} (h : fetchDecode c s = .ok i) :
    ¬ OutOfRange (signed s.pc) ∧ decode c (s.mem.read (signed s.pc).toNat) = .ok i := by
  by_cases hr : OutOfRange (signed s.pc)
  · simp [fetchDecode, fetch_outOfRange hr] at h
  · refine ⟨hr, ?_⟩
    rw [fetchDecode, fetch_inRange hr] at h
    dsimp only at h
    split at h
    · cases h
    · next hd => rw [hd, Except.ok.inj h]

/-- An error of fetch and decode is one of the two checks of R93, in their order. -/
theorem fetchDecode_error {c : Config} {s : State} {e : RunError} (h : fetchDecode c s = .error e) :
    (OutOfRange (signed s.pc) ∧ e = .fetchAddressOutOfRange (signed s.pc)) ∨
    (¬ OutOfRange (signed s.pc) ∧ ∃ op, decode c (s.mem.read (signed s.pc).toNat) = .error (.unknownOpcode op) ∧
      e = .unknownOpcodeAtRuntime op) := by
  by_cases hr : OutOfRange (signed s.pc)
  · rw [fetchDecode, fetch_outOfRange hr] at h
    exact .inl ⟨hr, (Except.error.inj h).symm⟩
  · refine .inr ⟨hr, ?_⟩
    rw [fetchDecode, fetch_inRange hr] at h
    dsimp only at h
    split at h
    · next d hd =>
      obtain ⟨op⟩ := d
      exact ⟨op, hd, (Except.error.inj h).symm⟩
    · cases h

@[simp] theorem State.attempt_ok (s t : State) : s.attempt (.ok t) = .next t := rfl
@[simp] theorem State.attempt_error (s : State) (e : RunError) : s.attempt (.error e) = .next (s.raise e) := rfl

/-- An attempted effect completes or raises, and never stops otherwise. -/
theorem State.attempt_cases (s : State) (effect : Except RunError State) :
    (∃ t, effect = .ok t ∧ s.attempt effect = .next t) ∨
    (∃ e, effect = .error e ∧ s.attempt effect = .next (s.raise e)) := by
  cases effect with
  | ok t => exact .inl ⟨t, rfl, rfl⟩
  | error e => exact .inr ⟨e, rfl, rfl⟩

/-- The limit check, with no limit and with one. -/
theorem limitReached_iff {c : Config} {s : State} :
    limitReached c s = true ↔ ∃ n, c.maxSteps = some n ∧ n ≤ s.icount := by
  unfold limitReached
  cases c.maxSteps <;> simp

@[simp] theorem limitReached_spec (s : State) : limitReached Config.spec s = false := rfl

/-- The check reads the count alone. -/
theorem limitReached_congr {c : Config} {s t : State} (h : t.icount = s.icount) :
    limitReached c t = limitReached c s := by
  unfold limitReached; rw [h]

end Sys2Proof.Machine
end

