-- ==== Sys2Proof/Laws/PerInstr.lean ====
section
/-! SUPPORT. Facts made once per constructor of Instr. `OpcodeInPlace`: the encoder puts the table's opcode value for an
instruction's mnemonic in bits 24 to 22 (30_encoding.md R44, R51). -/

namespace Sys2Proof.Laws

/-- The opcode bits of a concatenation whose low 22 bits are anything. -/
theorem opcodeField_append (op : BitVec 3) (low : BitVec 22) :
    opcodeField ((0 : BitVec 7) ++ op ++ low) = op := by
  ext k hk
  simp only [opcodeField, BitVec.getElem_extractLsb', BitVec.getLsbD_append]
  have h1 : ¬ (22 + k < 22) := by omega
  have h2 : 22 + k - 22 = k := by omega
  simp [h1, h2, hk]

namespace OpcodeInPlace

/-- The opcode field of an encoded instruction is the table's value for its mnemonic. -/
def Statement (i : Instr) : Prop :=
  ∀ (c : Config) (w : Word), encode c i = .ok w → c.opcodeMap.opcodeOf i.mnemonic = some (opcodeField w)

/-- From the encoder to the fields it fills. -/
theorem of_fields {i : Instr} (h : ∀ op, opcodeField (encodeFields op i) = op) : Statement i := by
  intro c w hw
  unfold encode at hw
  split at hw
  · cases hw
  · next op hop =>
    split at hw
    · rw [hop, ← Except.ok.inj hw, h op]
    · cases hw

theorem encodeR_opcode (op : BitVec 3) (a b d : RegNum) : opcodeField (encodeR op a b d) = op := by
  ext k hk
  simp only [encodeR, opcodeField, BitVec.getElem_extractLsb', BitVec.getLsbD_append]
  have h1 : ¬ (22 + k < 3) := by omega
  have h2 : ¬ (22 + k - 3 < 13) := by omega
  have h3 : ¬ (22 + k - 3 - 13 < 3) := by omega
  have h4 : ¬ (22 + k - 3 - 13 - 3 < 3) := by omega
  have h5 : 22 + k - 3 - 13 - 3 - 3 = k := by omega
  simp only [h1, h2, h3, h4, h5, hk, if_false, if_true]
  rw [BitVec.getLsbD_eq_getElem hk]

theorem encodeI_opcode (op : BitVec 3) (a b : RegNum) (off : Int) : opcodeField (encodeI op a b off) = op := by
  ext k hk
  simp only [encodeI, opcodeField, BitVec.getElem_extractLsb', BitVec.getLsbD_append]
  have h1 : ¬ (22 + k < 16) := by omega
  have h2 : ¬ (22 + k - 16 < 3) := by omega
  have h3 : ¬ (22 + k - 16 - 3 < 3) := by omega
  have h4 : 22 + k - 16 - 3 - 3 = k := by omega
  simp only [h1, h2, h3, h4, hk, if_false, if_true]
  rw [BitVec.getLsbD_eq_getElem hk]

theorem encodeJ_opcode (op : BitVec 3) (a b : RegNum) : opcodeField (encodeJ op a b) = op :=
  encodeI_opcode op a b 0

theorem encodeO_opcode (op : BitVec 3) : opcodeField (encodeO op) = op := opcodeField_append op 0

theorem add (a b d : RegNum) : Statement (.add a b d) := of_fields fun op => encodeR_opcode op a b d
theorem nand (a b d : RegNum) : Statement (.nand a b d) := of_fields fun op => encodeR_opcode op a b d
theorem lw (a b : RegNum) (off : Int) : Statement (.lw a b off) := of_fields fun op => encodeI_opcode op a b off
theorem sw (a b : RegNum) (off : Int) : Statement (.sw a b off) := of_fields fun op => encodeI_opcode op a b off
theorem beq (a b : RegNum) (off : Int) : Statement (.beq a b off) := of_fields fun op => encodeI_opcode op a b off
theorem jalr (a b : RegNum) : Statement (.jalr a b) := of_fields fun op => encodeJ_opcode op a b
theorem halt : Statement .halt := of_fields encodeO_opcode
theorem noop : Statement .noop := of_fields encodeO_opcode

end OpcodeInPlace

end Sys2Proof.Laws
end

