-- ==== Sys2Proof/Laws/Step.lean ====
section
/-! SUPPORT. What an instruction and a step can do, said once: every later proof cites these. -/

namespace Sys2Proof.Machine

/-! ### One instruction -/

theorem exec_add (a b d : RegNum) (s : State) :
    exec (.add a b d) s = .next (s.writeReg d (s.readReg a + s.readReg b)).advance := rfl

theorem exec_nand (a b d : RegNum) (s : State) :
    exec (.nand a b d) s = .next (s.writeReg d (~~~(s.readReg a &&& s.readReg b))).advance := rfl

theorem exec_lw_inRange {a b : RegNum} {off : Int} {s : State} (h : ¬ OutOfRange (effectiveAddress s a off)) :
    exec (.lw a b off) s = .next (s.writeReg b (s.mem.read (effectiveAddress s a off).toNat)).advance := by
  simp only [exec, execLw, memRead_inRange h, Except.map, State.attempt_ok]

theorem exec_lw_outOfRange {a b : RegNum} {off : Int} {s : State} (h : OutOfRange (effectiveAddress s a off)) :
    exec (.lw a b off) s = .next (s.raise (.memoryAddressOutOfRange (effectiveAddress s a off))) := by
  simp only [exec, execLw, memRead_outOfRange h, Except.map, State.attempt_error]

theorem exec_sw_inRange {a b : RegNum} {off : Int} {s : State} (h : ¬ OutOfRange (effectiveAddress s a off)) :
    exec (.sw a b off) s =
      .next { s with mem := s.mem.write (effectiveAddress s a off).toNat (s.readReg b), pc := s.pc + 1 } := by
  simp only [exec, execSw, memWrite_inRange h, Except.map, State.attempt_ok]
  rfl

theorem exec_sw_outOfRange {a b : RegNum} {off : Int} {s : State} (h : OutOfRange (effectiveAddress s a off)) :
    exec (.sw a b off) s = .next (s.raise (.memoryAddressOutOfRange (effectiveAddress s a off))) := by
  simp only [exec, execSw, memWrite_outOfRange h, Except.map, State.attempt_error]

theorem exec_beq_taken {a b : RegNum} {off : Int} {s : State} (h : RegsEqual s a b) :
    exec (.beq a b off) s = .next (s.setPc (branchTarget s off)) := by
  simp only [exec, execBeq, if_pos h]

theorem exec_beq_notTaken {a b : RegNum} {off : Int} {s : State} (h : ¬ RegsEqual s a b) :
    exec (.beq a b off) s = .next s.advance := by
  simp only [exec, execBeq, if_neg h]

theorem exec_jalr (a b : RegNum) (s : State) :
    exec (.jalr a b) s = .next ((s.writeReg b (s.pc + 1)).setPc (s.readReg a)) := rfl

theorem exec_halt (s : State) : exec .halt s = .next s.advance.halt := rfl

theorem exec_noop (s : State) : exec .noop s = .next s.advance := rfl

/-- Everything an instruction that answers a next state can do to the state. -/
theorem exec_cases {i : Instr} {s t : State} (h : exec i s = .next t) :
    (∃ d v p, destRegOf i = some d ∧ t = (s.writeReg d v).setPc p) ∨
    (∃ p, destRegOf i = none ∧ t = s.setPc p) ∨
    (∃ a b off, i = .sw a b off ∧ ¬ OutOfRange (effectiveAddress s a off) ∧
      t = { s with mem := s.mem.write (effectiveAddress s a off).toNat (s.readReg b), pc := s.pc + 1 }) ∨
    (i = .halt ∧ t = s.advance.halt) ∨
    (∃ a b off, (i = .lw a b off ∨ i = .sw a b off) ∧ OutOfRange (effectiveAddress s a off) ∧
      t = s.raise (.memoryAddressOutOfRange (effectiveAddress s a off))) := by
  have next_inj : ∀ {u : State}, exec i s = .next u → t = u := fun hu =>
    Host.Outcome.next.inj (h.symm.trans hu)
  cases i with
  | add a b d => exact .inl ⟨d, _, _, rfl, next_inj (exec_add a b d s)⟩
  | nand a b d => exact .inl ⟨d, _, _, rfl, next_inj (exec_nand a b d s)⟩
  | lw a b off =>
    by_cases hr : OutOfRange (effectiveAddress s a off)
    · exact .inr (.inr (.inr (.inr ⟨a, b, off, .inl rfl, hr, next_inj (exec_lw_outOfRange hr)⟩)))
    · exact .inl ⟨b, _, _, rfl, next_inj (exec_lw_inRange hr)⟩
  | sw a b off =>
    by_cases hr : OutOfRange (effectiveAddress s a off)
    · exact .inr (.inr (.inr (.inr ⟨a, b, off, .inr rfl, hr, next_inj (exec_sw_outOfRange hr)⟩)))
    · exact .inr (.inr (.inl ⟨a, b, off, rfl, hr, next_inj (exec_sw_inRange hr)⟩))
  | beq a b off =>
    by_cases he : RegsEqual s a b
    · exact .inr (.inl ⟨_, rfl, next_inj (exec_beq_taken he)⟩)
    · exact .inr (.inl ⟨_, rfl, next_inj (exec_beq_notTaken he)⟩)
  | jalr a b => exact .inl ⟨b, _, _, rfl, next_inj (exec_jalr a b s)⟩
  | halt => exact .inr (.inr (.inr (.inl ⟨rfl, next_inj (exec_halt s)⟩)))
  | noop => exact .inr (.inl ⟨_, rfl, next_inj (exec_noop s)⟩)

/-- Every instruction answers a next state: none stops. -/
theorem exec_answers_next (i : Instr) (s : State) : ∃ t, exec i s = .next t := by
  cases i with
  | add a b d => exact ⟨_, rfl⟩
  | nand a b d => exact ⟨_, rfl⟩
  | lw a b off => rcases s.attempt_cases _ with ⟨t, -, h⟩ | ⟨e, -, h⟩ <;> exact ⟨_, h⟩
  | sw a b off => rcases s.attempt_cases _ with ⟨t, -, h⟩ | ⟨e, -, h⟩ <;> exact ⟨_, h⟩
  | beq a b off => exact ⟨_, rfl⟩
  | jalr a b => exact ⟨_, rfl⟩
  | halt => exact ⟨_, rfl⟩
  | noop => exact ⟨_, rfl⟩

/-- No instruction touches the count. -/
theorem exec_icount {i : Instr} {s t : State} (h : exec i s = .next t) : t.icount = s.icount := by
  rcases exec_cases h with ⟨_, _, _, -, rfl⟩ | ⟨_, -, rfl⟩ | ⟨_, _, _, -, -, rfl⟩ | ⟨-, rfl⟩ |
    ⟨_, _, _, -, -, rfl⟩ <;> rfl

/-- Every instruction keeps memory canonical. -/
theorem exec_mem_wf {i : Instr} {s t : State} (h : exec i s = .next t) (hm : s.mem.wf = true) :
    t.mem.wf = true := by
  rcases exec_cases h with ⟨_, _, _, -, rfl⟩ | ⟨_, -, rfl⟩ | ⟨a, b, off, -, hr, rfl⟩ | ⟨-, rfl⟩ |
    ⟨_, _, _, -, -, rfl⟩
  · exact hm
  · exact hm
  · exact Memory.wf_write hm (toNat_lt_of_inRange hr)
  · exact hm
  · exact hm

/-! ### One step -/

theorem execAndCount_eq {i : Instr} {s t : State} (h : exec i s = .next t) :
    execAndCount i s = .next t.complete := by
  unfold execAndCount; rw [h]

/-- The steps of a running machine that raise before the instruction executes. -/
theorem stepWith_limit {c : Config} {s : State} (hr : s.run = .running) (hl : limitReached c s = true) :
    stepWith c s = .next (s.raise (.instructionLimitExceeded s.icount)) := by
  simp only [stepWith, hr, stepRunning, hl, if_true]

theorem stepWith_fetchDecode_error {c : Config} {s : State} {e : RunError} (hr : s.run = .running)
    (hl : limitReached c s = false) (hf : fetchDecode c s = .error e) :
    stepWith c s = .next (s.raise e) := by
  simp only [stepWith, hr, stepRunning, hl, hf, Bool.false_eq_true, if_false]

theorem stepWith_exec {c : Config} {s t : State} {i : Instr} (hr : s.run = .running)
    (hl : limitReached c s = false) (hf : fetchDecode c s = .ok i) (he : exec i s = .next t) :
    stepWith c s = .next t.complete := by
  simp only [stepWith, hr, stepRunning, hl, hf, Bool.false_eq_true, if_false, execAndCount_eq he]

/-- Everything a step that answers a next state can be, guards included. -/
theorem stepWith_cases {c : Config} {s t : State} (h : stepWith c s = .next t) :
    s.run = .running ∧
    ((limitReached c s = true ∧ t = s.raise (.instructionLimitExceeded s.icount)) ∨
     (limitReached c s = false ∧ ∃ e, fetchDecode c s = .error e ∧ t = s.raise e) ∨
     (limitReached c s = false ∧ ∃ i u, fetchDecode c s = .ok i ∧ exec i s = .next u ∧ t = u.complete)) := by
  have hrun : s.run = .running := by
    unfold stepWith at h
    split at h
    · assumption
    · cases h
    · cases h
  refine ⟨hrun, ?_⟩
  cases hl : limitReached c s with
  | true => exact .inl ⟨rfl, Host.Outcome.next.inj (h.symm.trans (stepWith_limit hrun hl))⟩
  | false =>
    cases hf : fetchDecode c s with
    | error e =>
      exact .inr (.inl ⟨rfl, e, rfl, Host.Outcome.next.inj (h.symm.trans (stepWith_fetchDecode_error hrun hl hf))⟩)
    | ok i =>
      obtain ⟨u, hu⟩ := exec_answers_next i s
      exact .inr (.inr ⟨rfl, i, u, rfl, hu, Host.Outcome.next.inj (h.symm.trans (stepWith_exec hrun hl hf hu))⟩)

/-- A step keeps memory canonical. -/
theorem stepWith_mem_wf {c : Config} {s t : State} (h : stepWith c s = .next t) (hm : s.mem.wf = true) :
    t.mem.wf = true := by
  obtain ⟨-, ⟨-, rfl⟩ | ⟨-, e, -, rfl⟩ | ⟨-, i, u, -, hu, rfl⟩⟩ := stepWith_cases h
  · exact hm
  · exact hm
  · simpa using exec_mem_wf hu hm

/-! ### Runs -/

theorem runWith_zero (c : Config) (s : State) : runWith c 0 s = s := rfl

theorem runWith_succ {c : Config} {n : Nat} {s t : State} (h : stepWith c s = .next t) :
    runWith c (n + 1) s = runWith c n t := by
  simp only [runWith, h]

end Sys2Proof.Machine
end

