-- ==== Sys2Proof/Tests/Slice0.lean ====
section
/-! SUPPORT. The model's own tests. Expected results are those of spec/95_test_vectors.md (the vector's name stands beside
each test) or are worked by hand from the rule named. Then one witness for the hypotheses of each statement. -/

namespace Sys2Proof.Tests

open Sys2Proof Sys2Proof.Machine

/-! ### WellFormed smoke: an ill-formed term for each check (R48, R65) -/

theorem test_lw_offset_too_large : Instr.wellFormed (.lw 0 1 32768) = false := by decide
theorem test_sw_offset_too_small : Instr.wellFormed (.sw 0 1 (-32769)) = false := by decide
theorem test_beq_offset_too_large : Instr.wellFormed (.beq 0 1 40000) = false := by decide
theorem test_offset_bounds_fit : Instr.wellFormed (.lw 0 1 32767) = true ∧ Instr.wellFormed (.beq 0 1 (-32768)) = true := by
  decide
theorem test_ill_formed_has_no_word : encode Config.spec (.lw 0 1 32768) = .error .offsetOutOfRange := by decide

/-! ### Decoding: words of section 2 of the vectors -/

theorem test_decode_add : decode Config.spec 0x000A0003 = .ok (.add 1 2 3) := by decide
theorem test_decode_add_ignores : decode Config.spec 0x000AFFFB = .ok (.add 1 2 3) ∧
    decode Config.spec 0xFE0A0003 = .ok (.add 1 2 3) := by decide
theorem test_decode_nand : decode Config.spec 0x004A0003 = .ok (.nand 1 2 3) := by decide
theorem test_decode_lw : decode Config.spec 0x0092FFFF = .ok (.lw 2 2 (-1)) := by decide
theorem test_decode_sw : decode Config.spec 0x00C3000A = .ok (.sw 0 3 10) := by decide
theorem test_decode_beq : decode Config.spec 0x01080001 = .ok (.beq 1 0 1) := by decide
theorem test_decode_jalr : decode Config.spec 0x0167FFFF = .ok (.jalr 4 7) := by decide
theorem test_decode_halt : decode Config.spec 0xFF800000 = .ok .halt ∧ decode Config.spec 0x01BFFFFF = .ok .halt := by
  decide
theorem test_decode_noop : decode Config.spec 0xFFFFFFFF = .ok .noop ∧ decode Config.spec 0x01FFFFFF = .ok .noop := by
  decide

/-- The alternative of R53: a word with bit 25 set computes opcode 8. -/
theorem test_decode_fault_mode :
    decode { Config.spec with upperBits := .fault } 0x02000000 = .error (.unknownOpcode 8) := by decide

/-- A table without `noop` (R56). -/
theorem test_decode_short_table :
    decode { Config.spec with opcodeMap := specOpcodeMap.take 7 } 0x01C00000 = .error (.unknownOpcode 7) := by decide

/-- R64 to R66: the words printed there. -/
theorem test_encode_examples : encode Config.spec (.add 0 0 1) = .ok 1 ∧ encode Config.spec (.lw 0 1 100) = .ok 8454244 ∧
    encode Config.spec (.beq 0 0 (-1)) = .ok 16842751 ∧ encode Config.spec (.jalr 4 7) = .ok 23527424 ∧
    encode Config.spec .halt = .ok 25165824 ∧ encode Config.spec .noop = .ok 29360128 := by decide

theorem test_decodeTableWord : decodeTableWord 32 0x00810064 = some (.lw 0 1 100) := by decide

/-! ### Small states and steps -/

/-- A running state with given registers, pc and memory. -/
def st (x : Vector Word 8) (pc : Word) (mem : Memory) : State :=
  { x := x, pc := pc, mem := mem, run := .running, icount := 0 }

/-- The next state of an outcome. -/
def after (o : Host.Outcome State Fault Refusal) : Option State :=
  match o with
  | .next t => some t
  | .fault _ => none
  | .refused _ => none

/-- What the vectors list of an end state: registers, pc, run status, count. -/
def view (o : Option State) : Option (Vector Word 8 × Int × RunStatus × Nat) :=
  o.map fun s => (s.x, signed s.pc, s.run, s.icount)

/-- A2: overflow wraps, and is not recorded. -/
theorem test_add_wraps : view (after (step (st #v[0, 2147483647, 1, 0, 0, 0, 0, 0] 0 [(0, 0x000A0003)]))) =
    some (#v[0, 2147483647, 1, 0x80000000, 0, 0, 0, 0], 1, .running, 1) := by decide

/-- A4: source and destination the same. -/
theorem test_add_same_register : view (after (step (st #v[0, 0x80000000, 0, 0, 0, 0, 0, 0] 0 [(0, 0x00090001)]))) =
    some (#v[0, 0, 0, 0, 0, 0, 0, 0], 1, .running, 1) := by decide

/-- N1. -/
theorem test_nand : view (after (step (st #v[0, 12, 10, 0, 0, 0, 0, 0] 0 [(0, 0x004A0003)]))) =
    some (#v[0, 12, 10, 0xFFFFFFF7, 0, 0, 0, 0], 1, .running, 1) := by decide

/-- N6: bit 31 takes part. -/
theorem test_nand_bit31 : view (after (step (st #v[0, 0x80000000, 0xFFFFFFFF, 0, 0, 0, 0, 0] 0 [(0, 0x004A0003)]))) =
    some (#v[0, 0x80000000, 0xFFFFFFFF, 0x7FFFFFFF, 0, 0, 0, 0], 1, .running, 1) := by decide

/-- L2: the address comes from the old base; a negative offset. -/
theorem test_lw_old_base : view (after (step (st #v[0, 0, 10, 0, 0, 0, 0, 0] 0 [(0, 0x0092FFFF), (9, 77)]))) =
    some (#v[0, 0, 77, 0, 0, 0, 0, 0], 1, .running, 1) := by decide

/-- L4: address 65536 faults before any write. -/
theorem test_lw_out_of_range : view (after (step (st #v[0, 32769, 4, 0, 0, 0, 0, 0] 0 [(0, 0x008A7FFF)]))) =
    some (#v[0, 32769, 4, 0, 0, 0, 0, 0], 0, .faulted (.memoryAddressOutOfRange 65536) 0, 0) := by decide

/-- W2: the same register as base and data. -/
theorem test_sw_same_register : (after (step (st #v[0, 20, 0, 0, 0, 0, 0, 0] 0 [(0, 0x00C90005)]))).map State.mem =
    some [(0, 0x00C90005), (25, 20)] := by decide

/-- W3: a faulting store changes no word. -/
theorem test_sw_out_of_range : after (step (st #v[0, 9, 0, 0, 0, 0, 0, 0] 0 [(0, 0x00C18000)])) =
    some { st #v[0, 9, 0, 0, 0, 0, 0, 0] 0 [(0, 0x00C18000)] with
      run := .faulted (.memoryAddressOutOfRange (-32768)) 0 } := by decide

/-- B8: all 32 bits are compared. -/
theorem test_beq_not_taken : view (after (step (st #v[0, 0x80000000, 0, 0, 0, 0, 0, 0] 10 [(10, 0x010A0005)]))) =
    some (#v[0, 0x80000000, 0, 0, 0, 0, 0, 0], 11, .running, 1) := by decide

/-- B4: the target is not checked when it is written. -/
theorem test_beq_backward : view (after (step (st #v[0, 3, 3, 0, 0, 0, 0, 0] 0 [(0, 0x010A8000)]))) =
    some (#v[0, 3, 3, 0, 0, 0, 0, 0], -32767, .running, 1) := by decide

/-- J2: with one register, jump to the old value, then link. -/
theorem test_jalr_same_register : view (after (step (st #v[0, 0, 0, 0, 6, 0, 0, 0] 2 [(2, 0x01640000)]))) =
    some (#v[0, 0, 0, 0, 3, 0, 0, 0], 6, .running, 1) := by decide

/-- J3: a negative target is accepted. -/
theorem test_jalr_negative : view (after (step (st #v[0, 0xFFFFFFFB, 0, 0, 0, 0, 0, 0] 1 [(1, 0x014A0000)]))) =
    some (#v[0, 0xFFFFFFFB, 2, 0, 0, 0, 0, 0], -5, .running, 1) := by decide

/-- H2: a halt at the last address leaves pc 65536 without a fault. -/
theorem test_halt_at_top : view (after (step (st (Vector.replicate 8 0) 65535 [(65535, 0x01800000)]))) =
    some (Vector.replicate 8 0, 65536, .halted, 1) := by decide

/-- O2: -1 is a noop. -/
theorem test_noop : after (step (st (Vector.replicate 8 0) 9 [(9, 0xFFFFFFFF)])) =
    some { st (Vector.replicate 8 0) 10 [(9, 0xFFFFFFFF)] with icount := 1 } := by decide

/-- X1: the fetch past the top faults and changes nothing else. -/
theorem test_fetch_out_of_range : after (step (st (Vector.replicate 8 0) 65536 [])) =
    some { st (Vector.replicate 8 0) 65536 [] with run := .faulted (.fetchAddressOutOfRange 65536) 65536 } := by decide

/-- X4's last step: the limit is tested before the fetch. -/
theorem test_limit : view (after (stepWith { Config.spec with maxSteps := some 3 }
    { st (Vector.replicate 8 0) 3 [(3, 0x00190003)] with icount := 3 })) =
    some (Vector.replicate 8 0, 3, .faulted (.instructionLimitExceeded 3) 3, 3) := by decide

/-- X6: a stopped machine has no step. -/
theorem test_halted_has_no_step : after (step { State.reset with run := .halted }) = none := by decide

/-! ### Reset and placing a word -/

theorem test_reset_image : (after (resetWith [25165824, -1])).map State.mem = some [(0, 25165824), (1, 0xFFFFFFFF)] := by
  decide
theorem test_reset_refuses : after (resetWith [2147483648]) = none := by decide
theorem test_withFetchWord : view (after (step (State.reset.withFetchWord 32 0x01800000))) =
    some (Vector.replicate 8 0, 1, .halted, 1) := by decide

/-! ### The assembler -/

/-- S1: the four words, with the label without its colon (C5). -/
theorem test_assemble_S1 : assemble Config.spec ["add 0 0 1", "beq 1 0 target", ".fill 5", "target halt # the end"] =
    .ok [1, 17301505, 5, 25165824] := by decide

/-- A label alone takes no address (D18); an undefined label is fatal. -/
theorem test_assemble_labels : assemble Config.spec ["here", "beq 0 0 here"] = .ok [16842751] ∧
    assemble Config.spec ["lw 0 1 nowhere"] =
      .error { error := .undefinedLabel "nowhere".toList, address := 0 } := by decide

/-! ### Witnesses: a state and operands that meet the hypotheses of each statement -/

/-- A configuration whose decoder rejects words with bits 31 to 25 set. -/
def faultMode : Config := { Config.spec with upperBits := .fault }

/-- A configuration whose table lacks `noop`. -/
def shortTable : Config := { Config.spec with opcodeMap := specOpcodeMap.take 7 }

/-- A configuration with a limit of 3. -/
def limit3 : Config := { Config.spec with maxSteps := some 3 }

/-- `noop` at address 65535. -/
def atTop : State := st (Vector.replicate 8 0) 65535 [(65535, 0x01C00000)]

/-- `sw 0 1 1` at address 0: a store to the very next word. -/
def storeNext : State := st #v[0, 29360128, 0, 0, 0, 0, 0, 0] 0 [(0, 0x00C10001)]

/-- `lw 0 1 -1` at address 0: an access out of range. -/
def lwOut : State := st (Vector.replicate 8 0) 0 [(0, 0x0081FFFF)]

/-- `beq 0 0 -1` at address 5. -/
def selfBranch : State := st (Vector.replicate 8 0) 5 [(5, 0x0100FFFF)]

theorem witness_DecoderReadsTheFieldsOfTheFormat :
    shortTable.upperBits = .ignore ∧ shortTable.opcodeMap.mnemonicOf (opcodeField 0x01C00000) = none := by decide

theorem witness_DecodeOfEncodeIsTheInstruction : Config.spec.wf = true ∧ faultMode.wf = true ∧
    encode faultMode (.lw 7 7 (-32768)) = .ok 0x00BF8000 ∧ Instr.wellFormed (.lw 7 7 (-32768)) = true := by decide

theorem witness_EncodeOfDecodeClearsTheUnusedBits : Config.spec.wf = true ∧
    decode Config.spec 0xFFBFFFFF = .ok .halt := by decide

theorem witness_UpperBitsAreNotExamined_ignore : Config.spec.upperBits = .ignore ∧
    bits 0xFE0A0003 24 0 = bits 0x000A0003 24 0 ∧ encode Config.spec .noop = .ok 0x01C00000 ∧
    bits 0x01FFFFFF 31 25 = 0 := by decide

theorem witness_UpperBitsAreNotExamined_fault :
    faultMode.upperBits = .fault ∧ (st (Vector.replicate 8 0) 0 [(0, 0x80000000)]).run = .running ∧
    limitReached faultMode (st (Vector.replicate 8 0) 0 [(0, 0x80000000)]) = false ∧
    fetch (st (Vector.replicate 8 0) 0 [(0, 0x80000000)]) 0 = .ok 0x80000000 ∧ bits 0x80000000 31 25 ≠ 0 := by decide

theorem witness_UnusedFieldsAreIgnored_R : Config.spec.upperBits = .ignore ∧
    bits 0x000AFFFB 24 22 = bits 0x000A0003 24 22 ∧ Config.spec.opcodeMap.mnemonicOf (opcodeField 0x000AFFFB) = some .add ∧
    bits 0x000AFFFB 21 16 = bits 0x000A0003 21 16 ∧ bits 0x000AFFFB 2 0 = bits 0x000A0003 2 0 ∧
    encode Config.spec (.add 1 2 3) = .ok 0x000A0003 := by decide

theorem witness_UnusedFieldsAreIgnored_I :
    bits 0xFE810064 24 22 = bits 0x00810064 24 22 ∧ Config.spec.opcodeMap.mnemonicOf (opcodeField 0xFE810064) = some .lw ∧
    bits 0xFE810064 21 0 = bits 0x00810064 21 0 := by decide

theorem witness_UnusedFieldsAreIgnored_J_O :
    bits 0x0167FFFF 24 22 = bits 0x01670000 24 22 ∧ Config.spec.opcodeMap.mnemonicOf (opcodeField 0x0167FFFF) = some .jalr ∧
    bits 0x0167FFFF 21 16 = bits 0x01670000 21 16 ∧ encode Config.spec (.jalr 4 7) = .ok 0x01670000 ∧
    bits 0x01BFFFFF 24 22 = bits 0x01800000 24 22 ∧ Config.spec.opcodeMap.mnemonicOf (opcodeField 0x01BFFFFF) = some .halt ∧
    encode Config.spec .halt = .ok 0x01800000 := by decide

theorem witness_OneTableServesBothDirections : Config.spec.wf = true ∧
    shortTable.opcodeMap.opcodeOf (Instr.mnemonic .noop) = none ∧ opcodeField 0x000A0003 = opcodeField 0x00000005 ∧
    decode Config.spec 0x000A0003 = .ok (.add 1 2 3) ∧ decode Config.spec 0x00000005 = .ok (.add 0 0 5) := by decide

theorem witness_SignExtensionInvertsTruncation : encode Config.spec (.lw 0 0 (-32768)) = .ok 0x00808000 ∧
    encode Config.spec (.sw 0 0 32767) = .ok 0x00C07FFF ∧ encode Config.spec (.beq 0 0 (-4)) = .ok 0x0100FFFC ∧
    ((-32769 : Int) < -32768 ∨ (32767 : Int) < -32769) ∧ ((32768 : Int) < -32768 ∨ (32767 : Int) < 32768) := by decide

theorem witness_EncoderShiftsAndOrsItsFields :
    (∀ m : Mnemonic, m = .add ∨ m = .nand ∨ m = .lw ∨ m = .sw ∨ m = .beq ∨ m = .jalr ∨ m = .halt ∨ m = .noop →
      (Config.spec.opcodeMap.opcodeOf m).isSome = true) ∧ OffsetFits (-32768) ∧ OffsetFits 32767 := by
  refine ⟨?_, by decide, by decide⟩
  intro m _
  cases m <;> decide

/-- Words that carry each opcode, for the decoding clauses of the eight instruction statements. -/
theorem witness_opcode_clauses : bits 0x000A0003 24 22 = 0 ∧ bits 0x004A0003 24 22 = 1 ∧ bits 0x0092FFFF 24 22 = 2 ∧
    bits 0x00C3000A 24 22 = 3 ∧ bits 0x01080001 24 22 = 4 ∧ bits 0x01670000 24 22 = 5 ∧ bits 0xFF800000 24 22 = 6 ∧
    bits 0xFFFFFFFF 24 22 = 7 := by decide

/-- Effective addresses at both ends of memory and just outside, for `lw` and `sw`, with memory canonical. -/
theorem witness_LwLoadsTheWordOrRaises_and_SwStoresTheWordOrRaises :
    (st #v[0, 32768, 0, 0, 0, 0, 0, 0] 0 []).mem.wf = true ∧
    effectiveAddress (st #v[0, 32768, 0, 0, 0, 0, 0, 0] 0 []) 0 0 = 0 ∧
    effectiveAddress (st #v[0, 32768, 0, 0, 0, 0, 0, 0] 0 []) 1 32767 = 65535 ∧
    effectiveAddress (st #v[0, 32769, 0, 0, 0, 0, 0, 0] 0 []) 1 32767 = 65536 ∧
    effectiveAddress (st #v[0, 32769, 0, 0, 0, 0, 0, 0] 0 []) 0 (-1) = -1 := by decide

theorem witness_EffectiveAddressWrapIsNotObservable : OffsetFits (-32768) ∧
    ¬ OutOfRange (effectiveAddress (st #v[0, 65535, 0, 0, 0, 0, 0, 0] 0 []) 1 0) ∧
    OutOfRange (effectiveAddress (st #v[0, 0x80000000, 0, 0, 0, 0, 0, 0] 0 []) 1 (-32768)) := by decide

theorem witness_BeqBranchesExactlyOnEquality :
    (st #v[0, 5, 5, 0, 0, 0, 0, 0] 0 []).readReg 1 = (st #v[0, 5, 5, 0, 0, 0, 0, 0] 0 []).readReg 2 ∧
    (st #v[0, 5, 5, 0, 0, 0, 0, 0] 0 []).readReg 0 ≠ (st #v[0, 5, 5, 0, 0, 0, 0, 0] 0 []).readReg 2 := by decide

theorem witness_HaltAdvancesThenStops : (st (Vector.replicate 8 0) 65535 [(65535, 0x01800000)]).run = .running ∧
    fetch (st (Vector.replicate 8 0) 65535 [(65535, 0x01800000)]) 65535 = .ok 0x01800000 ∧
    bits 0x01800000 24 22 = 6 := by decide

theorem witness_AddIsSignedAndUnsignedAddition :
    2147483647 < signed ((st #v[0x7FFFFFFF, 1, 0x80000000, 0, 0, 0, 0, 0] 0 []).readReg 0) +
      signed ((st #v[0x7FFFFFFF, 1, 0x80000000, 0, 0, 0, 0, 0] 0 []).readReg 1) ∧
    signed ((st #v[0x7FFFFFFF, 1, 0x80000000, 0, 0, 0, 0, 0] 0 []).readReg 2) +
      signed ((st #v[0x7FFFFFFF, 1, 0x80000000, 0, 0, 0, 0, 0] 0 []).readReg 2) < -2147483648 ∧
    signed ((st #v[0x7FFFFFFF, 1, 0x80000000, 0, 0, 0, 0, 0] 0 []).readReg 0) +
      signed ((st #v[0x7FFFFFFF, 1, 0x80000000, 0, 0, 0, 0, 0] 0 []).readReg 2) = -1 := by decide

theorem witness_NandAndAddBuildTheMissingOperations : (1 : RegNum) ≠ 3 ∧ (3 : RegNum) ≠ 4 ∧ (7 : RegNum) ≠ 3 ∧
    (st #v[0, 12, 10, 0, 0, 0, 0, 1] 0 []).readReg 7 = 1 := by decide

/-- Two states that differ in a register `add 1 2 3` does not read. -/
theorem witness_RegistersFollowTheReadWriteTable :
    after (exec (.add 1 2 3) (st #v[0, 5, 7, 0, 0, 0, 0, 0] 0 [])) = some (st #v[0, 5, 7, 12, 0, 0, 0, 0] 1 []) ∧
    after (exec (.add 1 2 3) (st #v[9, 5, 7, 0, 0, 0, 0, 0] 0 [])) = some (st #v[9, 5, 7, 12, 0, 0, 0, 0] 1 []) ∧
    (∀ r, r ∈ sourceRegs (.add 1 2 3) → (st #v[0, 5, 7, 0, 0, 0, 0, 0] 0 []).readReg r =
      (st #v[9, 5, 7, 0, 0, 0, 0, 0] 0 []).readReg r) ∧
    destRegOf (.add 1 2 3) = some 3 ∧ destRegOf (.sw 0 1 0) ≠ some 3 := by decide

/-- A running next state is safe. -/
theorem safe_of_running {s : State} (h : s.run = .running) : Safe s := by
  intro e addr
  rw [h]
  exact RunStatus.noConfusion

theorem witness_MemoryChangesOnlyAtTheStoredWord :
    storeOf (.sw 0 1 65535) (st #v[0, 7, 0, 0, 0, 0, 0, 0] 0 []) = some (65535, 7) ∧
    storeOf (.sw 0 1 (-1)) (st #v[0, 7, 0, 0, 0, 0, 0, 0] 0 []) = none ∧
    (after (exec (.sw 0 1 65535) (st #v[0, 7, 0, 0, 0, 0, 0, 0] 0 []))).isSome = true := by decide

theorem witness_OnlyHaltAndErrorsWriteTheRunStatus :
    exec .halt State.reset = .next { State.reset with pc := 1, run := .halted } ∧
    (after (stepWith Config.spec (st (Vector.replicate 8 0) 0 [(0, 0x01800000)]))).map State.run = some .halted :=
  ⟨rfl, by decide⟩

theorem witness_MemoriesThatReadAlikeAreEqual : Memory.wf [(0, 1), (65535, 2)] = true ∧
    ∀ a, Memory.read [(0, 1), (65535, 2)] a = Memory.read [(0, 1), (65535, 2)] a := ⟨by decide, fun _ => rfl⟩

theorem witness_StoringTwiceIsStoringOnce : storeNext.mem.wf = true ∧
    (∃ t, exec (.sw 0 1 65535) storeNext = .next t ∧ Safe t) :=
  ⟨by decide, _, rfl, safe_of_running rfl⟩

theorem witness_StepRunsTheDecodedInstruction : atTop.run = .running ∧ 0 ≤ signed atTop.pc ∧ signed atTop.pc ≤ 65535 ∧
    decode Config.spec (atTop.mem.read (signed atTop.pc).toNat) = .ok .noop ∧
    decode Config.spec (lwOut.mem.read (signed lwOut.pc).toNat) = .ok (.lw 0 1 (-1)) := by decide

theorem witness_PlacedWordIsTheNextInstruction :
    State.reset.mem.wf = true ∧ decodeTableWord 32 0x00810064 = some (.lw 0 1 100) := by decide

theorem witness_ChecksComeInOrder_limit_and_fetch :
    limitReached limit3 { atTop with icount := 3 } = true ∧ limitReached limit3 atTop = false ∧
    OutOfRange (signed (st (Vector.replicate 8 0) 65536 []).pc) := by decide

theorem witness_ChecksComeInOrder_decode_and_access : ¬ OutOfRange (signed atTop.pc) ∧
    decode shortTable (atTop.mem.read (signed atTop.pc).toNat) = .error (.unknownOpcode 7) ∧
    decode Config.spec (lwOut.mem.read (signed lwOut.pc).toNat) = .ok (.lw 0 1 (-1)) ∧
    OutOfRange (effectiveAddress lwOut 0 (-1)) := by decide

/-- The last hypothesis of `ChecksComeInOrder`: an instruction that accesses no memory out of range. -/
theorem witness_ChecksComeInOrder_safe : ∀ a b off, (Instr.noop = .lw a b off ∨ Instr.noop = .sw a b off) →
    ¬ OutOfRange (effectiveAddress atTop a off) := by
  intro a b off h
  rcases h with h | h <;> cases h

theorem witness_OutOfRangeTargetFaultsAtTheNextFetch : fetchDecode Config.spec atTop = .ok .noop ∧
    (after (step atTop)).map (fun t => (t.run, signed t.pc)) = some (.running, 65536) ∧
    fetchDecode Config.spec (st #v[0, 3, 3, 0, 0, 0, 0, 0] 0 [(0, 0x010A8000)]) = .ok (.beq 1 2 (-32768)) ∧
    (after (step (st #v[0, 3, 3, 0, 0, 0, 0, 0] 0 [(0, 0x010A8000)]))).map (fun t => (t.run, signed t.pc)) =
      some (.running, -32767) ∧
    fetchDecode Config.spec (st #v[0, 70000, 0, 0, 0, 0, 0, 0] 3 [(3, 0x014A0000)]) = .ok (.jalr 1 2) ∧
    (after (step (st #v[0, 70000, 0, 0, 0, 0, 0, 0] 3 [(3, 0x014A0000)]))).map (fun t => (t.run, signed t.pc)) =
      some (.running, 70000) := by decide

theorem witness_ErrorsArePrecise : (after (stepWith Config.spec lwOut)).map State.run =
    some (.faulted (.memoryAddressOutOfRange (-1)) 0) := by decide

theorem witness_StepHasThreeOutcomes : State.reset.run = .running ∧ { State.reset with run := .halted }.run ≠ .running := by
  decide

theorem witness_StoppedMachineStaysAsItIs :
    { State.reset with run := .faulted (.fetchAddressOutOfRange (-5)) 0xFFFFFFFB }.run ≠ .running := by decide

theorem witness_CountIsTheNumberOfCompletedSteps : State.reset.run = .running ∧
    (∀ k, k < 2 → (runWith Config.spec k State.reset).run = .running) ∧ Safe (runWith Config.spec 2 State.reset) :=
  ⟨rfl, by decide, safe_of_running (by decide)⟩

theorem witness_LimitIsTestedBeforeTheFetch : limit3.maxSteps = some 3 ∧
    3 ≤ { State.reset with icount := 3 }.icount ∧ { State.reset with icount := 2 }.icount < 3 := by decide

theorem witness_LimitedRunIsAPrefixOfTheUnlimitedRun : limit3.maxSteps = some 3 ∧ State.reset.icount + 3 ≤ 3 := by decide

theorem witness_PcFollowsTheAdvanceTable : atTop.run = .running ∧ limitReached limit3 atTop = false ∧
    fetchDecode limit3 atTop = .ok .noop ∧ (after (stepWith limit3 atTop)).isSome = true ∧
    fetchDecode limit3 lwOut = .ok (.lw 0 1 (-1)) ∧ (after (stepWith limit3 lwOut)).isSome = true := by decide

theorem witness_TakenBranchReachesItsSymbol : literalValue "loop".toList = none ∧
    SymbolTable.addressOf [("loop".toList, 2)] "loop".toList = some 2 ∧
    0 ≤ signed selfBranch.pc ∧ signed selfBranch.pc ≤ 65535 ∧ selfBranch.readReg 0 = selfBranch.readReg 0 := by decide

theorem witness_UnknownOpcodeNeedsAnotherConfiguration : (∀ op, Config.spec.opcodeMap.mnemonicOf op ≠ none) ∧
    shortTable.upperBits = .ignore ∧ atTop.run = .running ∧ limitReached shortTable atTop = false ∧
    fetch atTop (signed atTop.pc) = .ok 0x01C00000 ∧
    shortTable.opcodeMap.mnemonicOf (opcodeField 0x01C00000) = none ∧ (after (step atTop)).isSome = true := by decide

/-- Reset meets the parts of the invariant, and steps. -/
theorem witness_StepKeepsTheInvariant : ∃ t, Inv Config.spec State.reset ∧ step State.reset = .next t :=
  ⟨_, ⟨rfl, trivial, fun _ _ => Nat.zero_le _⟩, rfl⟩

theorem witness_EveryLoadedImageSatisfiesTheInvariant :
    (after (resetWith [25165824, -2147483648, 2147483647, 0])).isSome = true := by decide

theorem witness_ResetLoadsTheImage : [-2147483648, 2147483647].length ≤ 65536 ∧
    (∀ v : Int, v ∈ [-2147483648, 2147483647] → -2147483648 ≤ v ∧ v ≤ 2147483647) ∧
    ([-2147483648, 2147483647] : List Int)[1]? = some 2147483647 := by decide

theorem witness_ResetRefusesTheImagesItCannotHold : (2147483647 : Int) < 2147483648 ∧ (2147483648 : Int) ∈ [0, 2147483648] ∧
    (65536 : Nat) ≤ 65536 ∧ 65536 < 65537 ∧ (after (resetWith [0, 2147483648])).isNone = true := by decide

theorem witness_TraceShowsEachStateBeforeItsStep :
    (∀ j, j < 3 → (runWith Config.spec j selfBranch).run = .running) ∧
    (∀ j, j < 1 → (runWith Config.spec j lwOut).run = .running) ∧ (runWith Config.spec 1 lwOut).run ≠ .running := by decide

/-- The self-branch of R113 is observed once for each step and once at the end. -/
theorem test_trace_self_branch :
    traceWith Config.spec 2 selfBranch = [selfBranch.observe, selfBranch.observe, selfBranch.observe] := by decide

theorem witness_MemoryHoldsTheMostRecentStore : storeNext.mem.wf = true ∧
    storesOf Config.spec 2 storeNext = [(1, 29360128)] := by decide

theorem witness_StoreIsSeenByTheNextFetch : storeNext.run = .running ∧ storeNext.mem.wf = true ∧
    fetchDecode Config.spec storeNext = .ok (.sw 0 1 1) ∧ ¬ OutOfRange (effectiveAddress storeNext 0 1) ∧
    effectiveAddress storeNext 0 1 = signed storeNext.pc + 1 := by decide

theorem witness_ZeroCellsRunUntilTheFetchFaults : State.reset.run = .running ∧ 0 ≤ signed State.reset.pc ∧
    signed State.reset.pc + (65536 : Nat) = 65536 ∧
    (∀ a : Nat, signed State.reset.pc ≤ a → a ≤ 65535 → State.reset.mem.read a = 0) :=
  ⟨rfl, by decide, by decide, fun _ _ _ => rfl⟩

theorem witness_BranchToItselfNeverEnds : selfBranch.run = .running ∧
    fetchDecode Config.spec selfBranch = .ok (.beq 0 0 (-1)) := by decide

/-- The lines `noop`, `here halt`. -/
def twoLines : List (List Token) := [["noop".toList], ["here".toList, "halt".toList]]

theorem witness_LabelAddressesAreWordIndices :
    pass1 Config.spec ([["noop".toList]] ++ ["here".toList, "halt".toList] :: []) 0 [] = .ok [("here".toList, 1)] ∧
    lineLabel Config.spec ["here".toList, "halt".toList] = some "here".toList := by decide

theorem witness_DuplicateLabelIsFatal : lineLabel Config.spec ["L".toList, "halt".toList] = some "L".toList ∧
    lineLabel Config.spec ["L".toList] = some "L".toList := by decide

theorem witness_AssembledWordsDecodeToTheirStatements : Config.spec.wf = true ∧
    pass1 Config.spec twoLines 0 [] = .ok [("here".toList, 1)] ∧
    assembleLines Config.spec twoLines = .ok [29360128, 25165824] ∧
    (wordLines Config.spec twoLines)[1]? = some ["halt".toList] := by decide

end Sys2Proof.Tests
end

section
/-! What a step does to the run status and the count (00_scope.md R10), and the obligation of that rule. -/

namespace Sys2Proof.Machine

/-- What an instruction does to the run status: nothing, unless it is a `halt` or a load or store out of range (R23, R86). -/
theorem exec_run_cases {i : Instr} {s t : State} (h : exec i s = .next t) :
    t.run = s.run ∨ (i = .halt ∧ t.run = .halted) ∨
    (∃ a b off, (i = .lw a b off ∨ i = .sw a b off) ∧ OutOfRange (effectiveAddress s a off) ∧
      t = s.raise (.memoryAddressOutOfRange (effectiveAddress s a off))) := by
  obtain ⟨_, _, _, -, rfl⟩ | ⟨_, -, rfl⟩ | ⟨_, _, _, -, -, rfl⟩ | ⟨hi, rfl⟩ | hraise := exec_cases h
  · exact .inl rfl
  · exact .inl rfl
  · exact .inl rfl
  · exact .inr (.inl ⟨hi, rfl⟩)
  · exact .inr (.inr hraise)

/-- Only a running machine takes a step (R10). -/
theorem run_eq_running_of_stepWith {c : Config} {s t : State} (h : stepWith c s = .next t) : s.run = .running :=
  (stepWith_cases h).1

/-- A running machine always takes a step, whatever the limit, the fetch and the decode answer (R10). -/
theorem stepWith_answers_next (c : Config) {s : State} (hr : s.run = .running) : ∃ t, stepWith c s = .next t := by
  cases hl : limitReached c s with
  | true => exact ⟨_, stepWith_limit hr hl⟩
  | false =>
    cases hf : fetchDecode c s with
    | error e => exact ⟨_, stepWith_fetchDecode_error hr hl hf⟩
    | ok i =>
      obtain ⟨t, ht⟩ := exec_answers_next i s
      exact ⟨_, stepWith_exec hr hl hf ht⟩

/-- An instruction that raises no error is counted once, `halt` included (R25, R110). -/
theorem complete_icount_of_exec {i : Instr} {s t : State} (h : exec i s = .next t) (hsafe : Safe t) :
    t.complete.icount = s.icount + 1 := by
  rw [State.complete_icount_of_not_faulted t hsafe, exec_icount h]

/-- The three outcomes of R10: the step completes running, completes a `halt`, or raises an error. -/
theorem stepWith_outcomes {c : Config} {s t : State} (h : stepWith c s = .next t) :
    (t.run = .running ∧ t.icount = s.icount + 1) ∨
    (t.run = .halted ∧ fetchDecode c s = .ok .halt ∧ t.icount = s.icount + 1) ∨
    (∃ e, t = s.raise e) := by
  obtain ⟨hr, ⟨-, rfl⟩ | ⟨-, e, -, rfl⟩ | ⟨-, i, u, hf, hu, rfl⟩⟩ := stepWith_cases h
  · exact .inr (.inr ⟨_, rfl⟩)
  · exact .inr (.inr ⟨e, rfl⟩)
  · obtain hsame | ⟨rfl, hhalt⟩ | ⟨_, _, _, -, -, rfl⟩ := exec_run_cases hu
    · have hrun : u.run = .running := hsame.trans hr
      exact .inl ⟨by simp [hrun], complete_icount_of_exec hu (by simp [Safe, hrun])⟩
    · exact .inr (.inl ⟨by simp [hhalt], hf, complete_icount_of_exec hu (by simp [Safe, hhalt])⟩)
    · exact .inr (.inr ⟨_, State.complete_raise s _⟩)

/-- Settles O32: a running machine answers a next state, and the cases of a step are the three outcomes. -/
theorem stepHasThreeOutcomes : Obligations.StepHasThreeOutcomes := by
  unfold Obligations.StepHasThreeOutcomes
  refine ⟨fun c s hr => ?_, fun c s t hstopped hstep => hstopped (run_eq_running_of_stepWith hstep)⟩
  obtain ⟨t, ht⟩ := stepWith_answers_next c hr
  exact ⟨t, ht, stepWith_outcomes ht⟩

end Sys2Proof.Machine
end

section
/-! Steps that raise and steps that complete (60_exceptions.md R88, R92), and what a step does to the run status and the
count (10_state.md R23, R25). -/

namespace Sys2Proof.Machine

/-- A running state is safe. -/
theorem safe_of_running {s : State} (h : s.run = .running) : Safe s := by
  simp [Safe, h]

/-- A raise is not safe. -/
theorem not_safe_raise (s : State) (e : RunError) : ¬ Safe (s.raise e) := fun h => h e s.pc rfl

/-- Completing a step does not decide its safety. -/
@[simp] theorem safe_complete {s : State} : Safe s.complete ↔ Safe s := by
  simp [Safe]

/-- The errors of fetch and decode have their cause in the state (R93). -/
theorem errorHasCause_of_fetchDecode_error {c : Config} {s : State} {e : RunError}
    (h : fetchDecode c s = .error e) : ErrorHasCause c s e := by
  obtain ⟨hr, rfl⟩ | ⟨hr, op, hd, rfl⟩ := fetchDecode_error h
  · exact ⟨rfl, hr⟩
  · exact ⟨_, fetch_inRange hr, hd⟩

/-- A step raises an error that has its cause in the state it began in, or completes an instruction that raises none
(R92, R110). -/
theorem stepWith_raises_or_completes {c : Config} {s t : State} (h : stepWith c s = .next t) :
    (∃ e, t = s.raise e ∧ ErrorHasCause c s e) ∨
    (limitReached c s = false ∧
      ∃ i u, fetchDecode c s = .ok i ∧ exec i s = .next u ∧ Safe u ∧ t = u.complete) := by
  obtain ⟨hr, ⟨hl, rfl⟩ | ⟨-, e, he, rfl⟩ | ⟨hl, i, u, hf, hu, rfl⟩⟩ := stepWith_cases h
  · exact .inl ⟨_, rfl, rfl, hl⟩
  · exact .inl ⟨e, rfl, errorHasCause_of_fetchDecode_error he⟩
  · obtain hsame | ⟨-, hhalt⟩ | ⟨a, b, off, hi, hout, rfl⟩ := exec_run_cases hu
    · exact .inr ⟨hl, i, u, hf, hu, safe_of_running (hsame.trans hr), rfl⟩
    · exact .inr ⟨hl, i, u, hf, hu, by simp [Safe, hhalt], rfl⟩
    · refine .inl ⟨_, State.complete_raise s _, hout, a, b, off, rfl, ?_⟩
      obtain rfl | rfl := hi
      · exact .inl hf
      · exact .inr hf

/-- A step that raises no error counts one (R25). -/
theorem stepWith_icount_of_safe {c : Config} {s t : State} (h : stepWith c s = .next t) (hsafe : Safe t) :
    t.icount = s.icount + 1 := by
  obtain ⟨e, rfl, -⟩ | ⟨-, i, u, -, hu, hsafeU, rfl⟩ := stepWith_raises_or_completes h
  · exact absurd hsafe (not_safe_raise s e)
  · exact complete_icount_of_exec hu hsafeU

/-- A step ends `Halted` exactly where the limit lets it fetch a `halt` (R86). -/
theorem stepWith_halted_iff {c : Config} {s t : State} (h : stepWith c s = .next t) :
    t.run = .halted ↔ limitReached c s = false ∧ fetchDecode c s = .ok .halt := by
  have hr := run_eq_running_of_stepWith h
  constructor
  · intro ht
    obtain ⟨e, rfl, -⟩ | ⟨hl, i, u, hf, hu, -, rfl⟩ := stepWith_raises_or_completes h
    · cases ht
    · rw [State.complete_run] at ht
      obtain hsame | ⟨rfl, -⟩ | ⟨_, _, _, -, -, rfl⟩ := exec_run_cases hu
      · rw [hsame, hr] at ht; cases ht
      · exact ⟨hl, hf⟩
      · cases ht
  · rintro ⟨hl, hf⟩
    rw [stepWith_exec hr hl hf (exec_halt s)] at h
    rw [← Host.Outcome.next.inj h, State.complete_run, State.halt_run]

/-- Settles O24: the run status moves by `halt` and by errors alone. -/
theorem onlyHaltAndErrorsWriteTheRunStatus : Obligations.OnlyHaltAndErrorsWriteTheRunStatus := by
  unfold Obligations.OnlyHaltAndErrorsWriteTheRunStatus
  refine ⟨fun i s t h => ?_, fun c s t h => stepWith_halted_iff h⟩
  obtain hsame | hhalt | ⟨a, b, off, hi, -, ht⟩ := exec_run_cases h
  · exact .inl hsame
  · exact .inr (.inl hhalt)
  · exact .inr (.inr ⟨a, b, off, hi, ht⟩)

/-- A run whose steps all begin running, and whose end is safe, counts them. The start need be running only where a step
is taken, which is what the induction asks of the state after the first step. -/
theorem runWith_icount {c : Config} {n : Nat} {s : State} (hrun : ∀ k, k < n → (runWith c k s).run = .running)
    (hsafe : Safe (runWith c n s)) : (runWith c n s).icount = s.icount + n := by
  induction n generalizing s with
  | zero => rfl
  | succ n ih =>
    obtain ⟨t, ht⟩ : ∃ t, stepWith c s = .next t := stepWith_answers_next c (hrun 0 n.succ_pos)
    have hrunT : ∀ k, k < n → (runWith c k t).run = .running := fun k hk => by
      rw [← runWith_succ ht]; exact hrun (k + 1) (Nat.succ_lt_succ hk)
    rw [runWith_succ ht] at hsafe ⊢
    have hsafeT : Safe t := by
      cases n with
      | zero => exact hsafe
      | succ n => exact safe_of_running (hrunT 0 n.succ_pos)
    rw [ih hrunT hsafe, stepWith_icount_of_safe ht hsafeT]
    omega

/-- Settles O34: each step of the run is counted, by induction on the number of steps. -/
theorem countIsTheNumberOfCompletedSteps : Obligations.CountIsTheNumberOfCompletedSteps := by
  unfold Obligations.CountIsTheNumberOfCompletedSteps
  exact fun c n s _ hrun hsafe => runWith_icount hrun hsafe

end Sys2Proof.Machine
end

section
/-! The pc after each instruction (10_state.md R18): pc arithmetic in integers, and the advance table. -/

namespace Sys2Proof

/-- A decoded offset fits 16 signed bits (R48). -/
theorem signExtend16_fits (v : BitVec 16) : OffsetFits (signExtend16 v) := by
  have hv := v.isLt
  rw [signExtend16_toNat]
  split <;> constructor <;> omega

/-- Every instruction the decoder answers is well formed (R48, R49). -/
theorem decodeFields_wellFormed (m : Mnemonic) (w : Word) : (decodeFields m w).wellFormed = true := by
  cases m with
  | lw => exact decide_eq_true (signExtend16_fits _)
  | sw => exact decide_eq_true (signExtend16_fits _)
  | beq => exact decide_eq_true (signExtend16_fits _)
  | add => rfl
  | nand => rfl
  | jalr => rfl
  | halt => rfl
  | noop => rfl

/-- A sum of a pattern and a wrapped integer is the integer sum where that fits 32 signed bits (R8). -/
theorem signed_add_wrap32 {p : Word} {n : Int} (hlo : -2147483648 ≤ signed p + n) (hhi : signed p + n ≤ 2147483647) :
    signed (p + wrap32 n) = signed p + n := by
  unfold signed at *
  rw [BitVec.toInt_add, BitVec.toInt_ofInt, Int.add_bmod_bmod]
  exact Int.bmod_eq_of_le (by omega) (by omega)

end Sys2Proof

namespace Sys2Proof.Machine

/-- A fetched and decoded instruction is well formed. -/
theorem wellFormed_of_fetchDecode {c : Config} {s : State} {i : Instr} (h : fetchDecode c s = .ok i) :
    i.wellFormed = true := by
  obtain ⟨-, hd⟩ := fetchDecode_ok h
  obtain ⟨m, -, rfl⟩ := decode_ok hd
  exact decodeFields_wellFormed m _

/-- The sequential advance does not overflow from a pc that a fetch accepts (R18). -/
theorem signed_pc_add_one {s : State} (h : ¬ OutOfRange (signed s.pc)) : signed (s.pc + 1) = signed s.pc + 1 := by
  unfold OutOfRange at h
  exact signed_add_wrap32 (n := 1) (by omega) (by omega)

/-- The target of a taken branch does not overflow from a pc that a fetch accepts (R18, R80). -/
theorem signed_branchTarget {s : State} {off : Int} (h : ¬ OutOfRange (signed s.pc)) (hoff : OffsetFits off) :
    signed (branchTarget s off) = signed s.pc + 1 + off := by
  have hnext : signed s.pcNext = signed s.pc + 1 := signed_pc_add_one h
  unfold OutOfRange at h
  rw [branchTarget, signed_add_wrap32 (by omega) (by omega), hnext]

/-- The advance table of R18: the pc an instruction leaves where it raises no error. -/
def advancedPc (i : Instr) (s : State) : Word :=
  match i with
  | .add _ _ _ => s.pc + 1
  | .nand _ _ _ => s.pc + 1
  | .lw _ _ _ => s.pc + 1
  | .sw _ _ _ => s.pc + 1
  | .beq a b off => if RegsEqual s a b then branchTarget s off else s.pc + 1
  | .jalr a _ => s.readReg a
  | .halt => s.pc + 1
  | .noop => s.pc + 1

/-- The pc after an instruction that raises no error is the table's. -/
theorem exec_pc_of_safe {i : Instr} {s t : State} (h : exec i s = .next t) (hsafe : Safe t) :
    t.pc = advancedPc i s := by
  have pc_eq : ∀ {u : State}, exec i s = .next u → t.pc = u.pc := fun hu =>
    congrArg State.pc (Host.Outcome.next.inj (h.symm.trans hu))
  have not_raised : ∀ e, exec i s ≠ .next (s.raise e) := fun e hu =>
    not_safe_raise s e (Host.Outcome.next.inj (h.symm.trans hu) ▸ hsafe)
  cases i with
  | add a b d => exact pc_eq (exec_add a b d s)
  | nand a b d => exact pc_eq (exec_nand a b d s)
  | lw a b off =>
    by_cases hr : OutOfRange (effectiveAddress s a off)
    · exact absurd (exec_lw_outOfRange hr) (not_raised _)
    · exact pc_eq (exec_lw_inRange hr)
  | sw a b off =>
    by_cases hr : OutOfRange (effectiveAddress s a off)
    · exact absurd (exec_sw_outOfRange hr) (not_raised _)
    · exact pc_eq (exec_sw_inRange hr)
  | beq a b off =>
    by_cases he : RegsEqual s a b
    · exact (pc_eq (exec_beq_taken he)).trans (if_pos he).symm
    · exact (pc_eq (exec_beq_notTaken he)).trans (if_neg he).symm
  | jalr a b => exact pc_eq (exec_jalr a b s)
  | halt => exact pc_eq (exec_halt s)
  | noop => exact pc_eq (exec_noop s)

/-- A step that is not safe leaves the pc (R92). -/
theorem stepWith_pc_of_not_safe {c : Config} {s t : State} (h : stepWith c s = .next t) (hsafe : ¬ Safe t) :
    t.pc = s.pc := by
  obtain ⟨e, rfl, -⟩ | ⟨-, i, u, -, -, hsafeU, rfl⟩ := stepWith_raises_or_completes h
  · rfl
  · exact absurd (safe_complete.mpr hsafeU) hsafe

/-- A step that is safe leaves the pc the table gives its instruction. -/
theorem stepWith_pc_of_safe {c : Config} {s t : State} {i : Instr} (h : stepWith c s = .next t) (hsafe : Safe t)
    (hf : fetchDecode c s = .ok i) : t.pc = advancedPc i s := by
  obtain ⟨e, rfl, -⟩ | ⟨-, j, u, hj, hu, hsafeU, rfl⟩ := stepWith_raises_or_completes h
  · exact absurd hsafe (not_safe_raise s e)
  · obtain rfl : j = i := Except.ok.inj (hj.symm.trans hf)
    rw [State.complete_pc, exec_pc_of_safe hu hsafeU]

/-- Settles O37: the table's pc read as an integer, one row at a time. -/
theorem pcFollowsTheAdvanceTable : Obligations.PcFollowsTheAdvanceTable := by
  unfold Obligations.PcFollowsTheAdvanceTable
  intro c s t i _ hl hf h
  obtain ⟨hr, -⟩ := fetchDecode_ok hf
  refine ⟨by omega, by omega, stepWith_pc_of_not_safe h, fun hsafe => ?_⟩
  have hpc : t.pc = advancedPc i s := stepWith_pc_of_safe h hsafe hf
  have hnext : signed (s.pc + 1) = signed s.pc + 1 := signed_pc_add_one hr
  cases i with
  | add a b d => exact hpc ▸ hnext
  | nand a b d => exact hpc ▸ hnext
  | lw a b off => exact hpc ▸ hnext
  | sw a b off => exact hpc ▸ hnext
  | beq a b off =>
    have hoff : OffsetFits off := of_decide_eq_true (wellFormed_of_fetchDecode hf)
    have htarget := signed_branchTarget hr hoff
    by_cases he : s.readReg a = s.readReg b
    · have hp : signed t.pc = signed s.pc + 1 + off := by rw [hpc, advancedPc, if_pos he, htarget]
      simp only [if_pos he]
      exact ⟨hp, by omega, by omega⟩
    · simp only [if_neg he]
      rw [hpc, advancedPc, if_neg he, hnext]
  | jalr a b => exact hpc
  | halt => exact ⟨hpc ▸ hnext, (stepWith_halted_iff h).mpr ⟨hl, hf⟩⟩
  | noop => exact hpc ▸ hnext

end Sys2Proof.Machine
end

section
/-! The invariant of a run (10_state.md R13; 60_exceptions.md R88, R92, R98): a raise keeps it where the error has its
cause, and a completed instruction keeps it. -/

namespace Sys2Proof.Machine

/-- The cause of an error still stands in the state that records one: a raise changes the run status alone (R92). -/
theorem errorHasCause_raise {c : Config} {s : State} {e e' : RunError} :
    ErrorHasCause c (s.raise e') e ↔ ErrorHasCause c s e := by
  cases e <;> exact Iff.rfl

/-- Raising an error that has its cause keeps the invariant. -/
theorem Inv.raise {c : Config} {s : State} {e : RunError} (hinv : Inv c s) (he : ErrorHasCause c s e) :
    Inv c (s.raise e) where
  memory := hinv.memory
  status := ⟨rfl, errorHasCause_raise.mpr he⟩
  limit := hinv.limit

/-- A count below the limit stays within it after one more step (R98). -/
theorem succ_icount_le_of_limit {c : Config} {s : State} {n : Nat} (hl : limitReached c s = false)
    (hn : c.maxSteps = some n) : s.icount + 1 ≤ n := by
  by_contra hlt
  rw [limitReached_iff.mpr ⟨n, hn, by omega⟩] at hl
  cases hl

/-- A completed instruction leaves a run status backed by the pc and the count (R18, R23, R25). -/
theorem statusHasCause_complete {c : Config} {s u : State} {i : Instr} (hr : s.run = .running)
    (hpc : ¬ OutOfRange (signed s.pc)) (hu : exec i s = .next u) (hsafe : Safe u) : StatusHasCause c u.complete := by
  obtain hsame | ⟨rfl, hhalt⟩ | ⟨_, _, _, -, -, rfl⟩ := exec_run_cases hu
  · rw [StatusHasCause, State.complete_run, hsame, hr]; trivial
  · have hnext : signed u.pc = signed s.pc + 1 := by
      rw [exec_pc_of_safe hu hsafe]; exact signed_pc_add_one hpc
    rw [StatusHasCause, State.complete_run, hhalt, State.complete_pc, complete_icount_of_exec hu hsafe]
    refine ⟨?_, ?_, ?_⟩ <;> omega
  · exact absurd hsafe (not_safe_raise s _)

/-- Every step keeps the invariant. -/
theorem Inv.stepWith {c : Config} {s t : State} (hinv : Inv c s) (h : stepWith c s = .next t) : Inv c t := by
  obtain ⟨e, rfl, he⟩ | ⟨hl, i, u, hf, hu, hsafe, rfl⟩ := stepWith_raises_or_completes h
  · exact hinv.raise he
  · obtain ⟨hpc, -⟩ := fetchDecode_ok hf
    refine ⟨stepWith_mem_wf h hinv.memory,
      statusHasCause_complete (run_eq_running_of_stepWith h) hpc hu hsafe, fun n hn => ?_⟩
    rw [complete_icount_of_exec hu hsafe]
    exact succ_icount_le_of_limit hl hn

/-- Settles O40: the step lemma, for the spec's configuration and for every one. -/
theorem stepKeepsTheInvariant : Obligations.StepKeepsTheInvariant := by
  unfold Obligations.StepKeepsTheInvariant
  exact ⟨fun s t hinv h => hinv.stepWith h, fun c s t hinv h => hinv.stepWith h⟩

/-- Settles O41: reset's memory is canonical, it runs, and its count is 0. -/
theorem resetSatisfiesTheInvariant : Obligations.ResetSatisfiesTheInvariant := by
  unfold Obligations.ResetSatisfiesTheInvariant
  exact fun c => ⟨State.reset_mem_wf, trivial, fun n _ => Nat.zero_le n⟩

end Sys2Proof.Machine
end

section
/-! The registers an instruction reads and writes (10_state.md R16; 40_arith_logic.md R75). -/

namespace Sys2Proof.Machine

/-- An instruction changes no register but its destination. -/
theorem exec_readReg_of_not_dest {i : Instr} {s t : State} {r : RegNum} (h : exec i s = .next t)
    (hr : destRegOf i ≠ some r) : t.readReg r = s.readReg r := by
  obtain ⟨d, v, p, hd, rfl⟩ | ⟨_, -, rfl⟩ | ⟨_, _, _, -, -, rfl⟩ | ⟨-, rfl⟩ | ⟨_, _, _, -, -, rfl⟩ := exec_cases h
  · have hne : r ≠ d := fun e => hr (e ▸ hd)
    rw [State.readReg_setPc, State.readReg_writeReg_other s d r v hne]
  · rfl
  · rfl
  · rfl
  · rfl

/-- Two states that agree on everything but the registers. -/
structure SameOutsideRegs (s u : State) : Prop where
  pc : s.pc = u.pc
  mem : s.mem = u.mem
  run : s.run = u.run
  icount : s.icount = u.icount

/-- Two next states agree on everything but the registers and, unless an error was raised, on the destination `d`. -/
structure SameEffect (d : Option RegNum) (t v : State) : Prop extends SameOutsideRegs t v where
  dest : Safe t → ∀ r, d = some r → t.readReg r = v.readReg r

section
variable {s u : State}

/-- The same word written to one register, and the same pc. -/
theorem SameEffect.write (h : SameOutsideRegs s u) {d : RegNum} {x y p q : Word} (hx : x = y) (hp : p = q) :
    SameEffect (some d) ((s.writeReg d x).setPc p) ((u.writeReg d y).setPc q) where
  pc := hp
  mem := h.mem
  run := h.run
  icount := h.icount
  dest := by
    rintro - r ⟨⟩
    simp [hx]

/-- The same pc, and no register. -/
theorem SameEffect.jump (h : SameOutsideRegs s u) {p q : Word} (hp : p = q) :
    SameEffect none (s.setPc p) (u.setPc q) where
  pc := hp
  mem := h.mem
  run := h.run
  icount := h.icount
  dest := nofun

/-- The same word stored, then the sequential advance. -/
theorem SameEffect.store (h : SameOutsideRegs s u) {a b : Nat} {x y : Word} (ha : a = b) (hx : x = y) :
    SameEffect none { s with mem := s.mem.write a x, pc := s.pc + 1 }
      { u with mem := u.mem.write b y, pc := u.pc + 1 } where
  pc := by simp only [h.pc]
  mem := by simp only [h.mem, ha, hx]
  run := h.run
  icount := h.icount
  dest := nofun

/-- The same error: no destination is written. -/
theorem SameEffect.raise (h : SameOutsideRegs s u) {d : Option RegNum} {e e' : RunError} (he : e = e') :
    SameEffect d (s.raise e) (u.raise e') where
  pc := h.pc
  mem := h.mem
  run := by simp only [State.raise_run, he, h.pc]
  icount := h.icount
  dest := fun hsafe => absurd hsafe (not_safe_raise s e)

/-- The advance and the halt of `halt`. -/
theorem SameEffect.halt (h : SameOutsideRegs s u) : SameEffect none s.advance.halt u.advance.halt where
  pc := by simp only [State.halt_pc, State.advance_pc, h.pc]
  mem := h.mem
  run := rfl
  icount := h.icount
  dest := nofun

/-- The effective address is read from the base register alone. -/
theorem effectiveAddress_congr {a : RegNum} {off : Int} (h : s.readReg a = u.readReg a) :
    effectiveAddress s a off = effectiveAddress u a off := by
  rw [effectiveAddress, effectiveAddress, h]

/-- What an instruction does is a function of its source registers, the pc and memory. -/
theorem exec_sameEffect {i : Instr} (h : SameOutsideRegs s u)
    (hsrc : ∀ r, r ∈ sourceRegs i → s.readReg r = u.readReg r) :
    ∃ t v, exec i s = .next t ∧ exec i u = .next v ∧ SameEffect (destRegOf i) t v := by
  have hnext : s.pc + 1 = u.pc + 1 := by rw [h.pc]
  cases i with
  | add a b d =>
    have ha := hsrc a (by simp [sourceRegs])
    have hb := hsrc b (by simp [sourceRegs])
    exact ⟨_, _, exec_add a b d s, exec_add a b d u, .write h (by rw [ha, hb]) hnext⟩
  | nand a b d =>
    have ha := hsrc a (by simp [sourceRegs])
    have hb := hsrc b (by simp [sourceRegs])
    exact ⟨_, _, exec_nand a b d s, exec_nand a b d u, .write h (by rw [ha, hb]) hnext⟩
  | lw a b off =>
    have hea : effectiveAddress s a off = effectiveAddress u a off :=
      effectiveAddress_congr (hsrc a (by simp [sourceRegs]))
    by_cases hr : OutOfRange (effectiveAddress s a off)
    · exact ⟨_, _, exec_lw_outOfRange hr, exec_lw_outOfRange (hea ▸ hr), .raise h (by rw [hea])⟩
    · exact ⟨_, _, exec_lw_inRange hr, exec_lw_inRange (hea ▸ hr), .write h (by rw [h.mem, hea]) hnext⟩
  | sw a b off =>
    have hb := hsrc b (by simp [sourceRegs])
    have hea : effectiveAddress s a off = effectiveAddress u a off :=
      effectiveAddress_congr (hsrc a (by simp [sourceRegs]))
    by_cases hr : OutOfRange (effectiveAddress s a off)
    · exact ⟨_, _, exec_sw_outOfRange hr, exec_sw_outOfRange (hea ▸ hr), .raise h (by rw [hea])⟩
    · exact ⟨_, _, exec_sw_inRange hr, exec_sw_inRange (hea ▸ hr), .store h (by rw [hea]) hb⟩
  | beq a b off =>
    have ha := hsrc a (by simp [sourceRegs])
    have hb := hsrc b (by simp [sourceRegs])
    by_cases he : RegsEqual s a b
    · have heu : RegsEqual u a b := ha.symm.trans (he.trans hb)
      have htarget : branchTarget s off = branchTarget u off := congrArg (· + wrap32 off) hnext
      exact ⟨_, _, exec_beq_taken he, exec_beq_taken heu, .jump h htarget⟩
    · have heu : ¬ RegsEqual u a b := fun hu => he (ha.trans (hu.trans hb.symm))
      exact ⟨_, _, exec_beq_notTaken he, exec_beq_notTaken heu, .jump h hnext⟩
  | jalr a b =>
    have ha := hsrc a (by simp [sourceRegs])
    exact ⟨_, _, exec_jalr a b s, exec_jalr a b u, .write h hnext ha⟩
  | halt => exact ⟨_, _, exec_halt s, exec_halt u, .halt h⟩
  | noop => exact ⟨_, _, exec_noop s, exec_noop u, .jump h hnext⟩

end

/-- Settles O22: the write frame, and noninterference by the instruction's effect in both states. -/
theorem registersFollowTheReadWriteTable : Obligations.RegistersFollowTheReadWriteTable := by
  unfold Obligations.RegistersFollowTheReadWriteTable
  refine ⟨fun i s t r h hr => exec_readReg_of_not_dest h hr, ?_⟩
  intro i s u t v ht hv hsrc hpc hmem hrun hicount
  obtain ⟨t', v', ht', hv', heffect⟩ := exec_sameEffect ⟨hpc, hmem, hrun, hicount⟩ hsrc
  obtain rfl : t = t' := Host.Outcome.next.inj (ht.symm.trans ht')
  obtain rfl : v = v' := Host.Outcome.next.inj (hv.symm.trans hv')
  exact ⟨heffect.pc, heffect.mem, heffect.run, heffect.icount, heffect.dest⟩

end Sys2Proof.Machine
end

section
/-! The canonical form of memory is unique: canonical memories are equal where they read alike (10_state.md R24;
20_memory.md R29). -/

namespace Sys2Proof.Machine

/-- The first listed address reads as its word. -/
theorem Memory.read_cons_self (a : Nat) (v : Word) (rest : Memory) : Memory.read ((a, v) :: rest) a = v :=
  if_pos rfl

/-- An address that reads as no zero is at or above the lowest listed one. -/
theorem Memory.head_le_of_read_ne_zero {a b : Nat} {u : Word} {rest : Memory} (hlt : ∀ cell ∈ rest, b < cell.1)
    (h : Memory.read ((b, u) :: rest) a ≠ 0) : b ≤ a := by
  by_contra hba
  have hab : a < b := by omega
  refine h (Memory.read_eq_zero_of_below fun cell hc => ?_)
  rcases List.mem_cons.mp hc with rfl | hc
  · exact hab
  · exact hab.trans (hlt cell hc)

/-- Memories that read alike once the same lowest cell is put before each read alike themselves. -/
theorem Memory.read_tails_eq {a : Nat} {v : Word} {m m' : Memory} (hm : ∀ cell ∈ m, a < cell.1)
    (hm' : ∀ cell ∈ m', a < cell.1) (h : ∀ b, Memory.read ((a, v) :: m) b = Memory.read ((a, v) :: m') b) (b : Nat) :
    m.read b = m'.read b := by
  by_cases hb : a = b
  · subst hb
    rw [Memory.read_eq_zero_of_below hm, Memory.read_eq_zero_of_below hm']
  · simpa [Memory.read, hb] using h b

/-- Canonical memories that read alike are the same list: both list the same lowest address, with the same word. -/
theorem Memory.ext_of_wf {m m' : Memory} (hm : m.wf = true) (hm' : m'.wf = true)
    (h : ∀ a, m.read a = m'.read a) : m = m' := by
  induction m generalizing m' with
  | nil =>
    cases m' with
    | nil => rfl
    | cons cell rest' =>
      obtain ⟨b, u⟩ := cell
      obtain ⟨-, hu, -, -⟩ := Memory.wf_cons.mp hm'
      exact absurd ((Memory.read_cons_self b u rest').symm.trans (h b).symm) hu
  | cons cell rest ih =>
    obtain ⟨a, v⟩ := cell
    obtain ⟨-, hv, hlt, hrest⟩ := Memory.wf_cons.mp hm
    have ha : m'.read a = v := (h a).symm.trans (Memory.read_cons_self a v rest)
    cases m' with
    | nil => exact absurd ha.symm hv
    | cons cell' rest' =>
      obtain ⟨b, u⟩ := cell'
      obtain ⟨-, hu, hlt', hrest'⟩ := Memory.wf_cons.mp hm'
      have hb : Memory.read ((a, v) :: rest) b = u := (h b).trans (Memory.read_cons_self b u rest')
      obtain rfl : a = b := le_antisymm (Memory.head_le_of_read_ne_zero hlt (hb ▸ hu))
        (Memory.head_le_of_read_ne_zero hlt' (ha ▸ hv))
      obtain rfl : v = u := (Memory.read_cons_self a v rest).symm.trans hb
      rw [ih hrest hrest' (Memory.read_tails_eq hlt hlt' h)]

/-- Settles O25: by induction on the cells, the lowest listed address first. -/
theorem memoriesThatReadAlikeAreEqual : Obligations.MemoriesThatReadAlikeAreEqual := by
  unfold Obligations.MemoriesThatReadAlikeAreEqual
  exact fun m m' hm hm' h => Memory.ext_of_wf hm hm' h

end Sys2Proof.Machine
end

section
/-! What an instruction, a step and a run store (20_memory.md R33, R39). -/

namespace Sys2Proof.Machine

/-! ### The store of one instruction -/

/-- Memory after the store an instruction performs, if it performs one. -/
def Memory.afterStore (m : Memory) (store : Option (Nat × Word)) : Memory :=
  match store with
  | none => m
  | some (a, v) => m.write a v

theorem storeOf_sw_inRange {a b : RegNum} {off : Int} {s : State} (h : ¬ OutOfRange (effectiveAddress s a off)) :
    storeOf (.sw a b off) s = some ((effectiveAddress s a off).toNat, s.readReg b) := if_neg h

theorem storeOf_sw_outOfRange {a b : RegNum} {off : Int} {s : State} (h : OutOfRange (effectiveAddress s a off)) :
    storeOf (.sw a b off) s = none := if_pos h

/-- Only a `sw` in range stores: the word of its `regB`, at its effective address (R78). -/
theorem storeOf_eq_some {i : Instr} {s : State} {a : Nat} {v : Word} (h : storeOf i s = some (a, v)) :
    ∃ regA regB off, i = .sw regA regB off ∧ ¬ OutOfRange (effectiveAddress s regA off) ∧
      a = (effectiveAddress s regA off).toNat ∧ v = s.readReg regB := by
  cases i with
  | sw regA regB off =>
    by_cases hr : OutOfRange (effectiveAddress s regA off)
    · rw [storeOf_sw_outOfRange hr] at h; cases h
    · rw [storeOf_sw_inRange hr] at h
      cases h
      exact ⟨regA, regB, off, rfl, hr, rfl, rfl⟩
  | add => cases h
  | nand => cases h
  | lw => cases h
  | beq => cases h
  | jalr => cases h
  | halt => cases h
  | noop => cases h

/-- An instruction's whole effect on memory is its store. -/
theorem exec_mem {i : Instr} {s t : State} (h : exec i s = .next t) : t.mem = s.mem.afterStore (storeOf i s) := by
  have mem_of : ∀ {u : State}, exec i s = .next u → u.mem = s.mem.afterStore (storeOf i s) →
      t.mem = s.mem.afterStore (storeOf i s) := fun hu hmem =>
    (congrArg State.mem (Host.Outcome.next.inj (h.symm.trans hu))).trans hmem
  cases i with
  | add a b d => exact mem_of (exec_add a b d s) rfl
  | nand a b d => exact mem_of (exec_nand a b d s) rfl
  | lw a b off =>
    by_cases hr : OutOfRange (effectiveAddress s a off)
    · exact mem_of (exec_lw_outOfRange hr) rfl
    · exact mem_of (exec_lw_inRange hr) rfl
  | sw a b off =>
    by_cases hr : OutOfRange (effectiveAddress s a off)
    · exact mem_of (exec_sw_outOfRange hr) (by rw [storeOf_sw_outOfRange hr]; rfl)
    · exact mem_of (exec_sw_inRange hr) (by rw [storeOf_sw_inRange hr]; rfl)
  | beq a b off =>
    by_cases he : RegsEqual s a b
    · exact mem_of (exec_beq_taken he) rfl
    · exact mem_of (exec_beq_notTaken he) rfl
  | jalr a b => exact mem_of (exec_jalr a b s) rfl
  | halt => exact mem_of (exec_halt s) rfl
  | noop => exact mem_of (exec_noop s) rfl

/-- Settles O23: memory is what the instruction's store makes of it, and only a `sw` in range stores. -/
theorem memoryChangesOnlyAtTheStoredWord : Obligations.MemoryChangesOnlyAtTheStoredWord := by
  unfold Obligations.MemoryChangesOnlyAtTheStoredWord
  intro i s t h
  have hmem : t.mem = s.mem.afterStore (storeOf i s) := exec_mem h
  refine ⟨fun hnone => by rw [hmem, hnone]; rfl, fun a v hsome => ?_⟩
  obtain ⟨regA, regB, off, hi, hr, ha, hv⟩ := storeOf_eq_some hsome
  unfold OutOfRange at hr
  refine ⟨⟨regA, regB, off, hi, by omega, hv⟩, by omega, fun a' hne => ?_⟩
  rw [hmem, hsome]
  exact Memory.read_write_other hne

/-! ### The most recent store of a run -/

theorem nextStore_limit {c : Config} {s : State} (hr : s.run = .running) (hl : limitReached c s = true) :
    nextStore c s = none := by
  simp only [nextStore, hr, hl, if_true]

theorem nextStore_fetchDecode_error {c : Config} {s : State} {e : RunError} (hr : s.run = .running)
    (hl : limitReached c s = false) (hf : fetchDecode c s = .error e) : nextStore c s = none := by
  simp only [nextStore, hr, hl, hf, Bool.false_eq_true, if_false]

theorem nextStore_exec {c : Config} {s : State} {i : Instr} (hr : s.run = .running)
    (hl : limitReached c s = false) (hf : fetchDecode c s = .ok i) : nextStore c s = storeOf i s := by
  simp only [nextStore, hr, hl, hf, Bool.false_eq_true, if_false]

/-- A step's whole effect on memory is its store: a step that raises before it executes stores nothing (R92). -/
theorem stepWith_mem {c : Config} {s t : State} (h : stepWith c s = .next t) :
    t.mem = s.mem.afterStore (nextStore c s) := by
  obtain ⟨hr, ⟨hl, rfl⟩ | ⟨hl, e, hf, rfl⟩ | ⟨hl, i, u, hf, hu, rfl⟩⟩ := stepWith_cases h
  · rw [nextStore_limit hr hl]; rfl
  · rw [nextStore_fetchDecode_error hr hl hf]; rfl
  · rw [nextStore_exec hr hl hf, State.complete_mem, exec_mem hu]

/-- A stopped machine stays as it is (R97). -/
theorem runWith_of_not_running {c : Config} {s : State} (n : Nat) (hr : s.run ≠ .running) : runWith c n s = s := by
  cases n with
  | zero => rfl
  | succ n =>
    rw [runWith]
    split
    · next ht => exact absurd (run_eq_running_of_stepWith ht) hr
    · rfl
    · rfl

/-- A stopped machine stores nothing. -/
theorem storesOf_of_not_running {c : Config} {s : State} (n : Nat) (hr : s.run ≠ .running) :
    storesOf c n s = [] := by
  cases n with
  | zero => rfl
  | succ n =>
    rw [storesOf]
    split
    · next ht => exact absurd (run_eq_running_of_stepWith ht) hr
    · rfl
    · rfl

theorem storesOf_succ {c : Config} {n : Nat} {s t : State} (h : stepWith c s = .next t) :
    storesOf c (n + 1) s = (nextStore c s).toList ++ storesOf c n t := by
  simp only [storesOf, h]

/-- A later history starts from the word an earlier one leaves. -/
theorem lastStoreTo_append (a : Nat) (initial : Word) (earlier later : List (Nat × Word)) :
    lastStoreTo a initial (earlier ++ later) = lastStoreTo a (lastStoreTo a initial earlier) later := by
  induction earlier generalizing initial with
  | nil => rfl
  | cons store rest ih => exact ih _

/-- One store, or none, as a history. -/
theorem Memory.read_afterStore {m : Memory} (hm : m.wf = true) (a : Nat) (store : Option (Nat × Word)) :
    (m.afterStore store).read a = lastStoreTo a (m.read a) store.toList := by
  cases store with
  | none => rfl
  | some cell =>
    obtain ⟨b, v⟩ := cell
    change (m.write b v).read a = if b = a then v else m.read a
    split
    · next hab => rw [← hab, Memory.read_write_same hm]
    · next hab => exact Memory.read_write_other (Ne.symm hab)

/-- Settles O46: by induction on the number of steps; the first step's store is what the rest of the run starts from. -/
theorem memoryHoldsTheMostRecentStore : Obligations.MemoryHoldsTheMostRecentStore := by
  unfold Obligations.MemoryHoldsTheMostRecentStore
  intro c n
  induction n with
  | zero => exact fun s _ a => rfl
  | succ n ih =>
    intro s hm a
    by_cases hr : s.run = .running
    · obtain ⟨t, ht⟩ := stepWith_answers_next c hr
      rw [runWith_succ ht, storesOf_succ ht, lastStoreTo_append, ← Memory.read_afterStore hm, ← stepWith_mem ht]
      exact ih t (stepWith_mem_wf ht hm) a
    · rw [runWith_of_not_running (n + 1) hr, storesOf_of_not_running (n + 1) hr]
      rfl

end Sys2Proof.Machine
end

section
/-! A store repeated (20_memory.md R33), and a store read by the next fetch (20_memory.md R41; 70_reset_and_hazards.md
R115). -/

namespace Sys2Proof.Machine

/-! ### The same store twice -/

/-- Writing the word an address already holds changes nothing in canonical memory. -/
theorem Memory.write_of_read_eq {m : Memory} {a : Nat} {v : Word} (hm : m.wf = true) (ha : a < memWords)
    (h : m.read a = v) : m.write a v = m := by
  refine Memory.ext_of_wf (Memory.wf_write hm ha) hm fun b => ?_
  by_cases hb : b = a
  · rw [hb, Memory.read_write_same hm, h]
  · exact Memory.read_write_other hb

/-- A `sw` whose word is already stored advances the pc and does nothing else. -/
theorem exec_sw_of_stored {a b : RegNum} {off : Int} {s : State} (hm : s.mem.wf = true)
    (hr : ¬ OutOfRange (effectiveAddress s a off))
    (hv : s.mem.read (effectiveAddress s a off).toNat = s.readReg b) : exec (.sw a b off) s = .next s.advance := by
  rw [exec_sw_inRange hr, Memory.write_of_read_eq hm (toNat_lt_of_inRange hr) hv]
  rfl

/-- Settles O26: the first `sw` leaves its word stored, with the registers it reads as they were. -/
theorem storingTwiceIsStoringOnce : Obligations.StoringTwiceIsStoringOnce := by
  unfold Obligations.StoringTwiceIsStoringOnce
  intro a b off s t hm h hsafe
  by_cases hr : OutOfRange (effectiveAddress s a off)
  · rw [exec_sw_outOfRange hr] at h
    cases h
    exact absurd hsafe (not_safe_raise s _)
  · have hmT : t.mem.wf = true := exec_mem_wf h hm
    rw [exec_sw_inRange hr] at h
    cases h
    exact exec_sw_of_stored hmT hr (Memory.read_write_same hm)

/-! ### A store and the next fetch -/

/-- Every 3-bit opcode stands in the spec's table (R50). -/
theorem specOpcodeMap_total : ∀ op, (Config.spec.opcodeMap.mnemonicOf op).isSome = true := by decide

/-- Every word decodes in the spec's configuration (R55). -/
theorem decode_spec_total (w : Word) : ∃ i, decode Config.spec w = .ok i := by
  obtain ⟨m, hm⟩ := Option.isSome_iff_exists.mp (specOpcodeMap_total (opcodeField w))
  exact ⟨_, decode_of_mnemonicOf (.inl rfl) hm⟩

theorem fetchDecode_of_fetch {c : Config} {s : State} {w : Word} {i : Instr}
    (hf : fetch s (signed s.pc) = .ok w) (hd : decode c w = .ok i) : fetchDecode c s = .ok i := by
  simp only [fetchDecode, hf, hd]

/-- In canonical memory a fetch from the address of a `sw` in range answers the word it stored. -/
theorem fetch_exec_sw {a b : RegNum} {off : Int} {s t : State} (hm : s.mem.wf = true)
    (hr : ¬ OutOfRange (effectiveAddress s a off)) (h : exec (.sw a b off) s = .next t) :
    fetch t (effectiveAddress s a off) = .ok (s.readReg b) := by
  rw [fetch_inRange hr, exec_mem h, storeOf_sw_inRange hr]
  exact congrArg Except.ok (Memory.read_write_same hm)

/-- Settles O47: the step completes the `sw`, and where it stored at `pc + 1` its word is the next one fetched. -/
theorem storeIsSeenByTheNextFetch : Obligations.StoreIsSeenByTheNextFetch := by
  unfold Obligations.StoreIsSeenByTheNextFetch
  intro s a b off hrun hm hf hr
  obtain ⟨u, hu⟩ := exec_answers_next (.sw a b off) s
  have hstored := Host.Outcome.next.inj (hu.symm.trans (exec_sw_inRange hr))
  have hrunT : u.complete.run = .running := by rw [State.complete_run, hstored]; exact hrun
  have hfetch : fetch u.complete (effectiveAddress s a off) = .ok (s.readReg b) :=
    (fetch_congr (State.complete_mem u) _).trans (fetch_exec_sw hm hr hu)
  refine ⟨u.complete, stepWith_exec hrun (limitReached_spec s) hf hu, hrunT, hfetch, fun hnext => ?_⟩
  have hpc : signed u.complete.pc = effectiveAddress s a off := by
    rw [State.complete_pc, hstored, hnext]
    exact signed_pc_add_one (fetchDecode_ok hf).1
  obtain ⟨i, hi⟩ := decode_spec_total (s.readReg b)
  obtain ⟨v, hv⟩ := exec_answers_next i u.complete
  exact ⟨i, v, hi, hv, stepWith_exec hrunT (limitReached_spec _) (fetchDecode_of_fetch (hpc ▸ hfetch) hi) hv⟩

end Sys2Proof.Machine
end

section
/-! The fields of an encoded word, and the two round trips between `encode` and `decode` (30_encoding.md R44 to R54). -/

namespace Sys2Proof

open Sys2Proof.Machine

/-! ### From an instruction to its word and back -/

/-- The fields that the layouts of R45 to R47 place alike, as a decoder reads them; `low` is what stands in bits 15 to 0. -/
structure HasFields (w : Word) (op : BitVec 3) (a b : RegNum) (low : Nat) : Prop where
  upper  : upperBitsField w = 0
  opcode : opcodeField w = op
  regA   : regAField w = a
  regB   : regBField w = b
  low    : bits w 15 0 = low

/-- A word that is its fields shifted into place and added has those fields. -/
theorem hasFields_of_toNat {w : Word} {op : BitVec 3} {a b : RegNum} {low : Nat} (hlow : low < 65536)
    (hw : w.toNat = op.toNat * 2 ^ 22 + a.val * 2 ^ 19 + b.val * 2 ^ 16 + low) : HasFields w op a b low := by
  have hop := op.isLt
  constructor
  case upper => refine BitVec.eq_of_toNat_eq ?_; rw [upperBitsField_toNat, bits, hw]; change _ = 0; omega
  case opcode => refine BitVec.eq_of_toNat_eq ?_; rw [opcodeField_toNat, bits, hw]; omega
  case regA => refine Fin.ext ?_; rw [regAField_val, bits, hw]; omega
  case regB => refine Fin.ext ?_; rw [regBField_val, bits, hw]; omega
  case low => rw [bits, hw]; omega

theorem hasFields_encodeR (op : BitVec 3) (a b d : RegNum) : HasFields (encodeR op a b d) op a b d.val :=
  hasFields_of_toNat (by omega) (encodeR_toNat op a b d)

theorem hasFields_encodeI (op : BitVec 3) (a b : RegNum) (off : Int) :
    HasFields (encodeI op a b off) op a b (off % 65536).toNat :=
  hasFields_of_toNat (by omega) (encodeI_toNat op a b off)

theorem hasFields_encodeJ (op : BitVec 3) (a b : RegNum) : HasFields (encodeJ op a b) op a b 0 :=
  hasFields_of_toNat (by omega) (by rw [encodeJ_toNat, Nat.add_zero])

theorem hasFields_encodeO (op : BitVec 3) : HasFields (encodeO op) op 0 0 0 :=
  hasFields_of_toNat (by omega) (by rw [encodeO_toNat]; simp)

/-- Every encoding has its opcode in place and bits 31 to 25 zero (R44, R53). -/
theorem exists_hasFields_encodeFields (op : BitVec 3) (i : Instr) :
    ∃ a b low, HasFields (encodeFields op i) op a b low := by
  cases i with
  | add a b d | nand a b d => exact ⟨_, _, _, hasFields_encodeR op a b d⟩
  | lw a b off | sw a b off | beq a b off => exact ⟨_, _, _, hasFields_encodeI op a b off⟩
  | jalr a b => exact ⟨_, _, _, hasFields_encodeJ op a b⟩
  | halt | noop => exact ⟨_, _, _, hasFields_encodeO op⟩

/-- `destReg` is the low end of an R-format word (R45). -/
theorem destRegField_encodeR (op : BitVec 3) (a b d : RegNum) : destRegField (encodeR op a b d) = d := by
  refine Fin.ext ?_
  rw [destRegField_val, bits, encodeR_toNat]
  omega

/-- Sign extension gives an offset that fits back from the low 16 bits of its word (R48). -/
theorem signExtend16_offsetField_encodeI (op : BitVec 3) (a b : RegNum) {off : Int} (h : OffsetFits off) :
    signExtend16 (offsetField (encodeI op a b off)) = off := by
  obtain ⟨hlo, hhi⟩ := h
  rw [signExtend16_toNat, offsetField_toNat, (hasFields_encodeI op a b off).low]
  split <;> omega

/-- The operands of a well-formed instruction read back from its word (R52). -/
theorem decodeFields_encodeFields (op : BitVec 3) {i : Instr} (h : i.wellFormed = true) :
    decodeFields i.mnemonic (encodeFields op i) = i := by
  cases i with
  | add a b d | nand a b d =>
    have hw := hasFields_encodeR op a b d
    simp only [Instr.mnemonic, encodeFields, decodeFields, hw.regA, hw.regB, destRegField_encodeR]
  | lw a b off | sw a b off | beq a b off =>
    have hw := hasFields_encodeI op a b off
    have hoff := signExtend16_offsetField_encodeI op a b (of_decide_eq_true h)
    simp only [Instr.mnemonic, encodeFields, decodeFields, hw.regA, hw.regB, hoff]
  | jalr a b =>
    have hw := hasFields_encodeJ op a b
    simp only [Instr.mnemonic, encodeFields, decodeFields, hw.regA, hw.regB]
  | halt | noop => rfl

/-- Under a one-to-one table the two lookups are inverse to each other (R51). -/
theorem opcodeOf_eq_some_iff {c : Config} (hc : c.wf = true) (m : Mnemonic) (op : BitVec 3) :
    c.opcodeMap.opcodeOf m = some op ↔ c.opcodeMap.mnemonicOf op = some m :=
  ⟨fun h => mnemonicOf_of_mem (wf_nodup hc).1 (opcodeOf_mem h),
   fun h => opcodeOf_of_mem (wf_nodup hc).2 (mnemonicOf_mem h)⟩

/-- Decoding inverts encoding under every one-to-one table: the encoder leaves the bits clear that DECODE_UPPER_BITS asks
about. -/
theorem decode_of_encode {c : Config} {i : Instr} {w : Word} (hc : c.wf = true) (h : encode c i = .ok w) :
    decode c w = .ok i := by
  obtain ⟨op, hop, hwf, rfl⟩ := encode_ok h
  obtain ⟨a, b, low, hw⟩ := exists_hasFields_encodeFields op i
  have hm : c.opcodeMap.mnemonicOf (opcodeField (encodeFields op i)) = some i.mnemonic := by
    rw [hw.opcode]; exact (opcodeOf_eq_some_iff hc _ _).mp hop
  rw [decode_of_mnemonicOf (.inr hw.upper) hm, decodeFields_encodeFields op hwf]

/-- A well-formed instruction whose mnemonic the table lists encodes to its fields (R51). -/
theorem encode_of_opcodeOf {c : Config} {i : Instr} {op : BitVec 3} (hop : c.opcodeMap.opcodeOf i.mnemonic = some op)
    (hwf : i.wellFormed = true) : encode c i = .ok (encodeFields op i) := by
  rw [encode, hop]
  exact if_pos hwf

/-- The spec's table lists every mnemonic (R50). -/
theorem exists_opcodeOf_spec (m : Mnemonic) : ∃ op, Config.spec.opcodeMap.opcodeOf m = some op := by
  cases m <;> exact ⟨_, rfl⟩

/-- Every well-formed instruction has a word in the spec's configuration. -/
theorem exists_encode_spec {i : Instr} (h : i.wellFormed = true) : ∃ w, encode Config.spec i = .ok w := by
  obtain ⟨op, hop⟩ := exists_opcodeOf_spec i.mnemonic
  exact ⟨_, encode_of_opcodeOf hop h⟩

/-- Settles O3: the decoder reads back each field the encoder places, and the spec's table lists every mnemonic. -/
theorem decodeOfEncodeIsTheInstruction : Obligations.DecodeOfEncodeIsTheInstruction := by
  unfold Obligations.DecodeOfEncodeIsTheInstruction
  exact ⟨fun c i w hc h => decode_of_encode hc h, fun i h => exists_encode_spec h⟩

/-! ### From a word to its instruction and back -/

theorem regBits_toFin (v : BitVec 3) : regBits v.toFin = v := by
  simp [regBits]

/-- `sext_32` is the two's-complement reading of the 16 bits (R48). -/
theorem signExtend16_eq_toInt (v : BitVec 16) : signExtend16 v = v.toInt := by
  rw [signExtend16_toNat, BitVec.toInt_eq_toNat_cond]
  split <;> split <;> omega

/-- A word is its fields side by side (R44). -/
theorem word_eq_append (w : Word) :
    w = upperBitsField w ++ opcodeField w ++ regBits (regAField w) ++ regBits (regBField w) ++ offsetField w := by
  simp only [upperBitsField, opcodeField, regAField, regBField, offsetField, regBits_toFin]
  refine BitVec.eq_of_toNat_eq ?_
  simp only [append_toNat, BitVec.extractLsb'_toNat]
  omega

/-- Masking a word masks each of its fields. -/
theorem and_append_fields (w : Word) (mu : BitVec 7) (mo ma mb : BitVec 3) (ml : BitVec 16) :
    w &&& (mu ++ mo ++ ma ++ mb ++ ml) =
      (upperBitsField w &&& mu) ++ (opcodeField w &&& mo) ++ (regBits (regAField w) &&& ma) ++
        (regBits (regBField w) &&& mb) ++ (offsetField w &&& ml) := by
  simp only [← BitVec.and_append]
  rw [← word_eq_append w]

/-- The mask of R45 keeps the low three bits of the offset field, which are `destReg`. -/
theorem offsetField_and_destReg (w : Word) :
    offsetField w &&& (0#13 ++ BitVec.allOnes 3) = 0#13 ++ regBits (destRegField w) := by
  have happend : offsetField w = w.extractLsb' 3 13 ++ w.extractLsb' 0 3 :=
    (BitVec.extractLsb'_append_extractLsb'_eq_extractLsb' (start₁ := 0) (len₁ := 3) (len₂ := 13) rfl).symm
  rw [happend, BitVec.and_append, BitVec.and_allOnes, BitVec.and_zero, destRegField, regBits_toFin]

/-- An R-format word has the layout of an I-format word, with `destReg` at the end of the low 16 bits (R45, R46). -/
theorem encodeR_eq_append (op : BitVec 3) (a b d : RegNum) :
    encodeR op a b d =
      0#7 ++ op ++ regBits a ++ regBits b ++ (0#13 ++ regBits d) := by
  refine BitVec.eq_of_toNat_eq ?_
  simp only [encodeR, append_toNat, BitVec.ofNat_eq_ofNat]
  omega

/-- So has an O-format word, with nothing in the register fields and the low 16 bits (R47). -/
theorem encodeO_eq_append (op : BitVec 3) :
    encodeO op = 0#7 ++ op ++ 0#3 ++ 0#3 ++ 0#16 := by
  refine BitVec.eq_of_toNat_eq ?_
  rw [encodeO_toNat]
  simp only [append_toNat, BitVec.toNat_ofNat]
  omega

/-- Encoding the fields read from a word clears the bits its format does not use (R53, R54). -/
theorem encodeFields_decodeFields (m : Mnemonic) (w : Word) :
    encodeFields (opcodeField w) (decodeFields m w) = w &&& m.format.usedBits := by
  have hR : w &&& Format.R.usedBits = encodeR (opcodeField w) (regAField w) (regBField w) (destRegField w) := by
    refine (and_append_fields w 0 (.allOnes 3) (.allOnes 3) (.allOnes 3) (0#13 ++ BitVec.allOnes 3)).trans ?_
    simp only [encodeR_eq_append, offsetField_and_destReg, BitVec.and_allOnes, BitVec.ofNat_eq_ofNat, BitVec.and_zero]
  have hI : w &&& Format.I.usedBits =
      encodeI (opcodeField w) (regAField w) (regBField w) (signExtend16 (offsetField w)) := by
    refine (and_append_fields w 0 (.allOnes 3) (.allOnes 3) (.allOnes 3) (.allOnes 16)).trans ?_
    simp only [encodeI, signExtend16_eq_toInt, BitVec.ofInt_toInt, BitVec.and_allOnes, BitVec.ofNat_eq_ofNat,
      BitVec.and_zero]
  have hJ : w &&& Format.J.usedBits = encodeJ (opcodeField w) (regAField w) (regBField w) := by
    refine (and_append_fields w 0 (.allOnes 3) (.allOnes 3) (.allOnes 3) 0).trans ?_
    simp only [encodeJ, BitVec.and_allOnes, BitVec.ofNat_eq_ofNat, BitVec.and_zero]
  have hO : w &&& Format.O.usedBits = encodeO (opcodeField w) := by
    refine (and_append_fields w 0 (.allOnes 3) 0 0 0).trans ?_
    simp only [encodeO_eq_append, BitVec.and_allOnes, BitVec.ofNat_eq_ofNat, BitVec.and_zero]
  cases m with
  | add | nand => exact hR.symm
  | lw | sw | beq => exact hI.symm
  | jalr => exact hJ.symm
  | halt | noop => exact hO.symm

/-- Settles O4: the decoded fields are the word's own, so encoding them puts back all but the bits the format leaves out. -/
theorem encodeOfDecodeClearsTheUnusedBits : Obligations.EncodeOfDecodeClearsTheUnusedBits := by
  unfold Obligations.EncodeOfDecodeClearsTheUnusedBits
  intro c i w hc h
  obtain ⟨m, hm, rfl⟩ := decode_ok h
  have hwf := decodeFields_wellFormed m w
  refine ⟨hwf, ?_⟩
  rw [decodeFields_mnemonic, ← encodeFields_decodeFields]
  refine encode_of_opcodeOf ?_ hwf
  rw [decodeFields_mnemonic]
  exact (opcodeOf_eq_some_iff hc m _).mpr hm

end Sys2Proof
end

section
/-! A run over zero cells (30_encoding.md R55). -/

namespace Sys2Proof.Machine

/-- A zero word is `add 0 0 0` (R55). -/
theorem decode_zero : decode Config.spec 0 = .ok (.add 0 0 0) := by decide

/-- The step from a zero cell: register 0 doubles, the pc advances, and nothing else changes. -/
theorem stepWith_zeroCell {s : State} (hr : s.run = .running) (hpc : ¬ OutOfRange (signed s.pc))
    (hzero : s.mem.read (signed s.pc).toNat = 0) :
    ∃ t, stepWith Config.spec s = .next t ∧ t.run = .running ∧ t.pc = s.pc + 1 ∧ t.mem = s.mem ∧
      t.icount = s.icount + 1 ∧ t.readReg 0 = s.readReg 0 + s.readReg 0 ∧ RegsSameBut 0 s t := by
  have hfetch : fetch s (signed s.pc) = .ok 0 := by rw [fetch_inRange hpc, hzero]
  have hexec := exec_add 0 0 0 s
  refine ⟨_, stepWith_exec hr (limitReached_spec s) (fetchDecode_of_fetch hfetch decode_zero) hexec, ?_, ?_, ?_,
    complete_icount_of_exec hexec (safe_of_running hr), ?_, fun r h0 => ?_⟩
  · simpa using hr
  · simp
  · simp
  · simp
  · simp [h0]

/-- The step from a pc past the last cell (R91). -/
theorem stepWith_fetch_outOfRange {s : State} (hr : s.run = .running) (hpc : OutOfRange (signed s.pc)) :
    stepWith Config.spec s = .next (s.raise (.fetchAddressOutOfRange (signed s.pc))) :=
  stepWith_fetchDecode_error hr (limitReached_spec s) (by simp only [fetchDecode, fetch_outOfRange hpc])

/-- Doubling once, then `n` times. -/
theorem double_mul_two_pow (x : Word) (n : Nat) :
    (x + x) * BitVec.ofNat 32 (2 ^ n) = x * BitVec.ofNat 32 (2 ^ (n + 1)) := by
  have htwice : 2 ^ (n + 1) = 2 ^ n + 2 ^ n := by omega
  rw [htwice, BitVec.ofNat_add, BitVec.mul_add, BitVec.add_mul]

/-- Settles O48: by induction on the number of zero cells left; each step doubles register 0 and leaves one cell fewer. -/
theorem zeroCellsRunUntilTheFetchFaults : Obligations.ZeroCellsRunUntilTheFetchFaults := by
  unfold Obligations.ZeroCellsRunUntilTheFetchFaults
  intro n
  induction n with
  | zero =>
    intro s hr _ htop _
    have hpc : signed s.pc = 65536 := by omega
    have hstep := stepWith_fetch_outOfRange hr (.inr (by omega))
    rw [hpc] at hstep
    exact ⟨s, rfl, hr, BitVec.toInt_inj.mp hpc, rfl, rfl, by simp, fun _ _ => rfl, runWith_succ hstep⟩
  | succ n ih =>
    intro s hr hpc htop hzero
    have hin : ¬ OutOfRange (signed s.pc) := by unfold OutOfRange; omega
    obtain ⟨u, hstep, hru, hpcu, hmemu, hcountu, h0u, hregsu⟩ :=
      stepWith_zeroCell hr hin (hzero _ (by omega) (by omega))
    have hnext : signed u.pc = signed s.pc + 1 := hpcu ▸ signed_pc_add_one hin
    obtain ⟨t, ht, hrt, hpct, hmemt, hcountt, h0t, hregst, hfault⟩ :=
      ih u hru (by omega) (by omega) fun a ha htop' => hmemu ▸ hzero a (by omega) htop'
    refine ⟨t, (runWith_succ hstep).trans ht, hrt, hpct, hmemt.trans hmemu, by omega, ?_,
      fun r h0 => (hregst r h0).trans (hregsu r h0), (runWith_succ hstep).trans hfault⟩
    rw [h0t, h0u, double_mul_two_pow]

end Sys2Proof.Machine
end

section
/-! The two passes of the assembler (30_encoding.md R60, R61, R69): what each leaves for the lines it has walked. -/

namespace Sys2Proof.Machine

/-! ### Pass 1 -/

/-- The counter after a line (R61). -/
theorem addressAfter_eq (c : Config) (line : List Token) (address : Nat) (rest : List (List Token)) :
    addressAfter c line address + (wordLines c rest).length = address + (wordLines c (line :: rest)).length := by
  rw [addressAfter, wordLines_cons]
  split
  · rfl
  · rw [List.length_cons]; omega

/-- A line with no label moves the counter alone (R60). -/
theorem pass1_cons_noLabel {c : Config} {line : List Token} (hl : lineLabel c line = none) (rest : List (List Token))
    (address : Nat) (sym : SymbolTable) :
    pass1 c (line :: rest) address sym = pass1 c rest (addressAfter c line address) sym := by
  rw [pass1, hl]

/-- Where pass 1 accepts a label, the label is new, and is entered at the counter (R60). -/
theorem pass1_cons_label {c : Config} {line : List Token} {rest : List (List Token)} {label : Token} {address : Nat}
    {sym sym' : SymbolTable} (hl : lineLabel c line = some label)
    (h : pass1 c (line :: rest) address sym = .ok sym') :
    sym.addressOf label = none ∧ pass1 c rest (addressAfter c line address) ((label, address) :: sym) = .ok sym' := by
  rw [pass1, hl] at h
  dsimp only at h
  split at h
  · cases h
  · next hnew => exact ⟨hnew, h⟩

/-- Pass 1 over lines in two parts: the second starts from the first one's table, at the count of the first one's words
(R61). -/
theorem pass1_append {c : Config} {first second : List (List Token)} {address : Nat} {sym sym' : SymbolTable}
    (h : pass1 c (first ++ second) address sym = .ok sym') :
    ∃ mid, pass1 c first address sym = .ok mid ∧
      pass1 c second (address + (wordLines c first).length) mid = .ok sym' := by
  induction first generalizing address sym with
  | nil => exact ⟨sym, rfl, h⟩
  | cons line rest ih =>
    rw [List.cons_append] at h
    rw [← addressAfter_eq]
    cases hl : lineLabel c line with
    | none =>
      rw [pass1_cons_noLabel hl] at h ⊢
      exact ih h
    | some label =>
      obtain ⟨hnew, hrest⟩ := pass1_cons_label hl h
      obtain ⟨mid, hmid, hsecond⟩ := ih hrest
      refine ⟨mid, ?_, hsecond⟩
      rw [pass1, hl]
      simp only [hnew, hmid]

/-- A label of an accepted text stands in the table with the count of the words before it. -/
theorem pass1_addressOf {c : Config} {before after : List (List Token)} {line : List Token} {label : Token}
    {sym : SymbolTable} (hl : lineLabel c line = some label)
    (h : pass1 c (before ++ line :: after) 0 [] = .ok sym) :
    sym.addressOf label = some (wordLines c before).length := by
  obtain ⟨mid, -, hafter⟩ := pass1_append h
  obtain ⟨-, hrest⟩ := pass1_cons_label hl hafter
  refine pass1_keeps hrest ?_
  rw [addressOf_cons, if_pos rfl, Nat.zero_add]

/-- Settles O50: pass 1 reaches the line at that count, enters the label, and never loses it. -/
theorem labelAddressesAreWordIndices : Obligations.LabelAddressesAreWordIndices := by
  unfold Obligations.LabelAddressesAreWordIndices
  exact fun c before after line label sym h hl => pass1_addressOf hl h

/-- Pass 1 accepts no second declaration of a label: the first one stands in the table that it reaches the second with. -/
theorem pass1_duplicate {c : Config} {before between after : List (List Token)} {line line' : List Token}
    {label : Token} {sym : SymbolTable} (hl : lineLabel c line = some label) (hl' : lineLabel c line' = some label) :
    pass1 c (before ++ line :: between ++ line' :: after) 0 [] ≠ .ok sym := by
  intro h
  obtain ⟨mid, hmid, hafter⟩ := pass1_append h
  obtain ⟨hnew, -⟩ := pass1_cons_label hl' hafter
  rw [pass1_addressOf hl hmid] at hnew
  cases hnew

/-- Settles O51: pass 1 rejects the lines, and its one error is a duplicate label. -/
theorem duplicateLabelIsFatal : Obligations.DuplicateLabelIsFatal := by
  unfold Obligations.DuplicateLabelIsFatal
  intro c before between after line line' label hl hl'
  cases h : pass1 c (before ++ line :: between ++ line' :: after) 0 [] with
  | ok sym => exact absurd h (pass1_duplicate hl hl')
  | error f =>
    obtain ⟨dup, address, rfl⟩ := pass1_error h
    refine ⟨dup, address, ?_⟩
    rw [assembleLines, h]

/-! ### Pass 2 -/

/-- Where pass 2 accepts a line with a body, the line's word comes first (R61). -/
theorem pass2_cons_body {c : Config} {sym : SymbolTable} {line : List Token} {rest : List (List Token)} {address : Nat}
    {words : List Word} (hb : lineBody c line ≠ []) (h : pass2 c sym (line :: rest) address = .ok words) :
    ∃ w ws, lineWord c sym address (lineBody c line) = .ok w ∧ pass2 c sym rest (address + 1) = .ok ws ∧
      words = w :: ws := by
  rw [pass2, if_neg hb] at h
  split at h
  · cases h
  · next w hw =>
    split at h
    · cases h
    · next ws hws => exact ⟨w, ws, hw, hws, (Except.ok.inj h).symm⟩

/-- A line with no body yields nothing (R61). -/
theorem pass2_cons_noBody {c : Config} {line : List Token} (hb : lineBody c line = []) (sym : SymbolTable)
    (rest : List (List Token)) (address : Nat) : pass2 c sym (line :: rest) address = pass2 c sym rest address := by
  rw [pass2, if_pos hb]

/-- Pass 2 yields one word for each word line, at its index from the counter it starts with. -/
theorem pass2_words {c : Config} {sym : SymbolTable} {lines : List (List Token)} {address : Nat} {words : List Word}
    (h : pass2 c sym lines address = .ok words) :
    words.length = (wordLines c lines).length ∧
    ∀ (k : Nat) (w : Word) (body : List Token), words[k]? = some w → (wordLines c lines)[k]? = some body →
      lineWord c sym (address + k) body = .ok w := by
  induction lines generalizing address words with
  | nil => cases h; exact ⟨rfl, fun k w body hw _ => by cases hw⟩
  | cons line rest ih =>
    rw [wordLines_cons]
    split
    · next hb => exact ih (pass2_cons_noBody hb sym rest address ▸ h)
    · next hb =>
      obtain ⟨w, ws, hw, hws, rfl⟩ := pass2_cons_body hb h
      obtain ⟨hlen, hwords⟩ := ih hws
      refine ⟨congrArg (· + 1) hlen, fun k v body hv hbody => ?_⟩
      cases k with
      | zero => cases hv; cases hbody; exact hw
      | succ k =>
        rw [← Nat.succ_add_eq_add_succ]
        exact hwords k v body hv hbody

/-- An accepted text passes both passes (R69). -/
theorem assembleLines_ok {c : Config} {lines : List (List Token)} {sym : SymbolTable} {image : List Word}
    (hsym : pass1 c lines 0 [] = .ok sym) (h : assembleLines c lines = .ok image) : pass2 c sym lines 0 = .ok image := by
  rw [assembleLines, hsym] at h
  exact h

/-- A line that has a word has a statement, and the word is the statement's. -/
theorem lineWord_ok {c : Config} {sym : SymbolTable} {address : Nat} {body : List Token} {w : Word}
    (h : lineWord c sym address body = .ok w) :
    ∃ st, statementOf c sym address body = .ok st ∧ statementWord c st = .ok w := by
  rw [lineWord] at h
  split at h
  · cases h
  · next st hst => exact ⟨st, hst, h⟩

/-- An instruction statement's word is its encoding (R64 to R66). -/
theorem statementWord_instr {c : Config} {i : Instr} {w : Word} (h : statementWord c (.instr i) = .ok w) :
    encode c i = .ok w := by
  rw [statementWord] at h
  split at h
  · next v hv => rw [hv, Except.ok.inj h]
  · cases h
  · cases h

/-- A `.fill` statement's word, read signed, is its value (R67). -/
theorem statementWord_fill {c : Config} {v : Int} {w : Word} (h : statementWord c (.fill v) = .ok w) : signed w = v := by
  rw [statementWord] at h
  split at h
  · next hfits =>
    rw [← Except.ok.inj h, signed, wrap32, BitVec.toInt_ofInt]
    obtain ⟨hlo, hhi⟩ := hfits
    exact Int.bmod_eq_of_le (by omega) (by omega)
  · cases h

/-- Settles O52: each word is its line's, and an instruction's word is an encoding, which decodes to it. -/
theorem assembledWordsDecodeToTheirStatements : Obligations.AssembledWordsDecodeToTheirStatements := by
  unfold Obligations.AssembledWordsDecodeToTheirStatements
  intro c lines sym image hc hsym himage
  obtain ⟨hlen, hwords⟩ := pass2_words (assembleLines_ok hsym himage)
  refine ⟨hlen, fun k w body hw hbody => ?_⟩
  have hline := hwords k w body hw hbody
  rw [Nat.zero_add] at hline
  obtain ⟨st, hst, hword⟩ := lineWord_ok hline
  refine ⟨st, hst, ?_, ?_⟩
  · rintro i rfl
    exact decode_of_encode hc (statementWord_instr hword)
  · rintro v rfl
    exact statementWord_fill hword

end Sys2Proof.Machine
end

section
/-! What the decoder answers (30_encoding.md R52): the fields of each word, and the words it rejects. -/

namespace Sys2Proof

open Sys2Proof.Machine

/-- Settles O1: the decoder run on the ten words. -/
theorem writtenWordsDecode : Obligations.WrittenWordsDecode := by
  unfold Obligations.WrittenWordsDecode
  decide

/-- The words a table with DECODE_UPPER_BITS = ignore rejects are those whose opcode it lacks (R52, R56). -/
theorem decode_of_no_mnemonic {c : Config} {w : Word} (hu : c.upperBits = .ignore)
    (hm : c.opcodeMap.mnemonicOf (opcodeField w) = none) : decode c w = .error (.unknownOpcode (bits w 24 22)) := by
  rw [decode, if_neg (by simp [hu]), hm, ← opcodeField_toNat]

/-- Under DECODE_UPPER_BITS = fault a word with one of bits 31 to 25 set is rejected (R53). -/
theorem decode_of_upperBits {c : Config} {w : Word} (hu : c.upperBits = .fault) (hw : bits w 31 25 ≠ 0) :
    decode c w = .error (.unknownOpcode (unmaskedOpcode w)) := by
  have hne : upperBitsField w ≠ 0 := fun h => hw (by rw [← upperBitsField_toNat, h]; rfl)
  rw [decode, if_pos ⟨hu, hne⟩]

/-- In the spec's configuration a word decodes by the row of its opcode, numbered as R50 numbers it. -/
theorem decode_spec (w : Word) : ∃ m op, Config.spec.opcodeMap.opcodeOf m = some op ∧ op.toNat = bits w 24 22 ∧
    decode Config.spec w = .ok (decodeFields m w) := by
  obtain ⟨m, hm⟩ := Option.isSome_iff_exists.mp (specOpcodeMap_total (opcodeField w))
  exact ⟨m, opcodeField w, (opcodeOf_eq_some_iff rfl m _).mpr hm, opcodeField_toNat w, decode_of_mnemonicOf (.inl rfl) hm⟩

/-- The offset of R48, its sign in bit 15. -/
theorem signExtend16_offsetField (w : Word) :
    signExtend16 (offsetField w) = if bits w 15 15 = 1 then (bits w 15 0 : Int) - 65536 else bits w 15 0 := by
  have hsign : 32768 ≤ bits w 15 0 ↔ bits w 15 15 = 1 := by unfold bits; omega
  rw [signExtend16_toNat, offsetField_toNat, if_congr hsign rfl rfl]

/-- Settles O2: each mnemonic has its one number in the spec's table, and each field is a range of bits. -/
theorem decoderReadsTheFieldsOfTheFormat : Obligations.DecoderReadsTheFieldsOfTheFormat := by
  unfold Obligations.DecoderReadsTheFieldsOfTheFormat
  refine ⟨fun c w hu hm => decode_of_no_mnemonic hu hm, fun w => ?_⟩
  obtain ⟨m, op, hop, hbits, hd⟩ := decode_spec w
  refine ⟨_, hd, ?_⟩
  have hA := regAField_val w
  have hB := regBField_val w
  have hD := destRegField_val w
  have hoff := signExtend16_offsetField w
  cases m with
  | add | nand => cases hop; exact ⟨hbits.symm, hA, hB, hD⟩
  | lw | sw | beq => cases hop; exact ⟨hbits.symm, hA, hB, hoff⟩
  | jalr => cases hop; exact ⟨hbits.symm, hA, hB⟩
  | halt | noop => cases hop; exact hbits.symm

/-- Settles O5: every opcode has a row, and the operands read from a word are well formed. -/
theorem everyWordIsAnInstruction : Obligations.EveryWordIsAnInstruction := by
  unfold Obligations.EveryWordIsAnInstruction
  refine ⟨fun w => ?_, by decide, by decide, by decide⟩
  obtain ⟨m, -, -, -, hd⟩ := decode_spec w
  exact ⟨_, hd, decodeFields_wellFormed m w⟩

end Sys2Proof
end

section
/-! The bits that the decoder does not examine and the encoder clears (30_encoding.md R53, R54). -/

namespace Sys2Proof

open Sys2Proof.Machine

/-- Two words agree on the operand bits that a format has (R45 to R47). -/
def Format.SameOperands (f : Format) (w u : Word) : Prop :=
  match f with
  | .R => bits w 21 16 = bits u 21 16 ∧ bits w 2 0 = bits u 2 0
  | .I => bits w 21 0 = bits u 21 0
  | .J => bits w 21 16 = bits u 21 16
  | .O => True

/-- The register fields of two words that agree on bits 21 to 16. -/
theorem regFields_congr {w u : Word} (h : bits w 21 16 = bits u 21 16) :
    regAField w = regAField u ∧ regBField w = regBField u := by
  refine ⟨Fin.ext ?_, Fin.ext ?_⟩
  · rw [regAField_val, regAField_val]; unfold bits at *; omega
  · rw [regBField_val, regBField_val]; unfold bits at *; omega

/-- The operands a decoder reads are a function of the bits its format has. -/
theorem decodeFields_congr {m : Mnemonic} {w u : Word} (h : m.format.SameOperands w u) :
    decodeFields m w = decodeFields m u := by
  cases m with
  | add | nand =>
    obtain ⟨hreg, hdest⟩ := h
    obtain ⟨hA, hB⟩ := regFields_congr hreg
    have hD : destRegField w = destRegField u := Fin.ext (by rw [destRegField_val, destRegField_val, hdest])
    simp only [decodeFields, hA, hB, hD]
  | lw | sw | beq =>
    replace h : bits w 21 0 = bits u 21 0 := h
    obtain ⟨hA, hB⟩ := regFields_congr (w := w) (u := u) (by unfold bits at *; omega)
    have hoff : offsetField w = offsetField u := BitVec.eq_of_toNat_eq (by
      rw [offsetField_toNat, offsetField_toNat]; unfold bits at *; omega)
    simp only [decodeFields, hA, hB, hoff]
  | jalr =>
    obtain ⟨hA, hB⟩ := regFields_congr h
    simp only [decodeFields, hA, hB]
  | halt | noop => rfl

/-- Under DECODE_UPPER_BITS = ignore a word's meaning is a function of its opcode and of the bits its format has
(R53, R54). -/
theorem decode_congr {c : Config} {w u : Word} (hu : c.upperBits = .ignore) (hop : bits w 24 22 = bits u 24 22)
    (h : ∀ m, c.opcodeMap.mnemonicOf (opcodeField w) = some m → m.format.SameOperands w u) :
    decode c w = decode c u := by
  have hopcode : opcodeField w = opcodeField u := BitVec.eq_of_toNat_eq (by
    rw [opcodeField_toNat, opcodeField_toNat, hop])
  cases hm : c.opcodeMap.mnemonicOf (opcodeField w) with
  | none => rw [decode_of_no_mnemonic hu hm, decode_of_no_mnemonic hu (hopcode ▸ hm), hop]
  | some m =>
    rw [decode_of_mnemonicOf (.inl hu) hm, decode_of_mnemonicOf (.inl hu) (hopcode ▸ hm), decodeFields_congr (h m hm)]

/-- Words that agree on bits 24 to 0 have the same operands in every format. -/
theorem sameOperands_of_bits {w u : Word} (h : bits w 24 0 = bits u 24 0) (f : Format) : f.SameOperands w u := by
  unfold bits at h
  cases f with
  | R => constructor <;> (unfold bits; omega)
  | I => change bits w 21 0 = bits u 21 0; unfold bits; omega
  | J => change bits w 21 16 = bits u 21 16; unfold bits; omega
  | O => trivial

/-- The unmasked opcode is the signed word divided by 2^22, rounded down (R53). -/
theorem unmaskedOpcode_eq (w : Word) : unmaskedOpcode w = signed w / 4194304 := by
  rw [unmaskedOpcode, signed, BitVec.toInt_sshiftRight, Int.shiftRight_eq_div_pow]
  rfl

/-- The masked and the unmasked opcode agree where bits 31 to 25 are 0 (R53). -/
theorem unmaskedOpcode_of_upperBits_zero {w : Word} (h : bits w 31 25 = 0) : unmaskedOpcode w = bits w 24 22 := by
  rw [unmaskedOpcode_eq, signed, BitVec.toInt_eq_toNat_cond]
  unfold bits at *
  split <;> omega

/-- The unmasked opcode lies outside 0 to 7 where one of bits 31 to 25 is set: a set bit 31 makes it negative (R53). -/
theorem unmaskedOpcode_outOfRange {w : Word} (h : bits w 31 25 ≠ 0) : unmaskedOpcode w < 0 ∨ 7 < unmaskedOpcode w := by
  rw [unmaskedOpcode_eq, signed, BitVec.toInt_eq_toNat_cond]
  unfold bits at h
  split <;> omega

/-- A word the decoder rejects ends the step that fetched it (R56, R89). -/
theorem stepWith_decode_error {c : Config} {s : State} {w : Word} {op : Int} (hr : s.run = .running)
    (hl : limitReached c s = false) (hf : fetch s (signed s.pc) = .ok w) (hd : decode c w = .error (.unknownOpcode op)) :
    stepWith c s = .next (s.raise (.unknownOpcodeAtRuntime op)) :=
  stepWith_fetchDecode_error hr hl (by simp only [fetchDecode, hf, hd, decodeRunError])

/-- An encoded word has only bits 24 to 0 (R53). -/
theorem encode_toNat_le {c : Config} {i : Instr} {w : Word} (h : encode c i = .ok w) : w.toNat ≤ 33554431 := by
  obtain ⟨op, -, -, rfl⟩ := encode_ok h
  obtain ⟨a, b, low, hw⟩ := exists_hasFields_encodeFields op i
  have hupper : bits (encodeFields op i) 31 25 = 0 := by rw [← upperBitsField_toNat, hw.upper]; rfl
  unfold bits at hupper
  omega

/-- Settles O6: no field reaches above bit 24, and the arithmetic shift of a larger word leaves 0 to 7. -/
theorem upperBitsAreNotExamined : Obligations.UpperBitsAreNotExamined := by
  unfold Obligations.UpperBitsAreNotExamined
  refine ⟨fun c w u hu h => ?_, fun c i w h => encode_toNat_le h, fun w h => unmaskedOpcode_of_upperBits_zero h,
    fun c s w hu hr hl hf hw => ⟨_, unmaskedOpcode_outOfRange hw, ?_⟩⟩
  · exact decode_congr hu (by unfold bits at *; omega) fun m _ => sameOperands_of_bits h m.format
  · exact stepWith_decode_error hr hl hf (decode_of_upperBits hu hw)

/-- Settles O7: the decoder reads the format's own bits, and each layout writes 0 in the others. -/
theorem unusedFieldsAreIgnored : Obligations.UnusedFieldsAreIgnored := by
  unfold Obligations.UnusedFieldsAreIgnored
  refine ⟨fun c w u m hu hop hm h => ?_, fun c i w h => ?_⟩
  · refine decode_congr hu hop fun m' hm' => ?_
    obtain rfl := Option.some.inj (hm.symm.trans hm')
    exact h
  · obtain ⟨op, -, -, rfl⟩ := encode_ok h
    cases i with
    | add a b d | nand a b d =>
      have hw := encodeR_toNat op a b d
      change bits (encodeR op a b d) 15 3 = 0
      rw [bits, hw]; omega
    | lw a b off | sw a b off | beq a b off => trivial
    | jalr a b => exact (hasFields_encodeJ op a b).low
    | halt | noop =>
      have hw := encodeO_toNat op
      change bits (encodeO op) 21 0 = 0
      rw [bits, hw]; omega

end Sys2Proof
end

section
/-! The encoder's laws: the table shared with the decoder (30_encoding.md R51), the offset's range (R48, R65), and a word as
its fields shifted into place (R64 to R66). -/

namespace Sys2Proof

open Sys2Proof.Machine

/-! ### One table -/

/-- A decoded word has the format the table gives its opcode (R51). -/
theorem formatOf_of_decode {c : Config} {w : Word} {i : Instr} (h : decode c w = .ok i) :
    c.opcodeMap.formatOf (opcodeField w) = some i.mnemonic.format := by
  obtain ⟨m, hm, rfl⟩ := decode_ok h
  rw [OpcodeMap.formatOf, hm, decodeFields_mnemonic]
  rfl

/-- Settles O8: the lookups are inverse to each other, and a decoded word's format is its opcode's. -/
theorem oneTableServesBothDirections : Obligations.OneTableServesBothDirections := by
  unfold Obligations.OneTableServesBothDirections
  refine ⟨fun c m op hc => opcodeOf_eq_some_iff hc m op, fun c i h => ?_, fun c w i h => formatOf_of_decode h,
    fun c w u i j hop hi hj => ?_⟩
  · rw [encode, h]
  · have hfi := formatOf_of_decode hi
    rw [hop, formatOf_of_decode hj] at hfi
    exact (Option.some.inj hfi).symm

/-! ### Offsets -/

/-- A well-formed I-format instruction has a word, which holds its offset modulo 65536 and decodes to it (R46, R48). -/
theorem exists_word_of_offset {i : Instr} {a b : RegNum} {off : Int} (hwf : i.wellFormed = true)
    (hI : ∀ op, encodeFields op i = encodeI op a b off) :
    ∃ w, encode Config.spec i = .ok w ∧ (bits w 15 0 : Int) = off % 65536 ∧ decode Config.spec w = .ok i := by
  obtain ⟨w, hw⟩ := exists_encode_spec hwf
  refine ⟨w, hw, ?_, decode_of_encode rfl hw⟩
  obtain ⟨op, -, -, rfl⟩ := encode_ok hw
  rw [hI, (hasFields_encodeI op a b off).low]
  omega

/-- The spec's encoder reports an instruction that is not well formed: its table has every mnemonic (R65). -/
theorem encode_spec_of_not_wellFormed {i : Instr} (h : i.wellFormed = false) :
    encode Config.spec i = .error .offsetOutOfRange := by
  obtain ⟨op, hop⟩ := exists_opcodeOf_spec i.mnemonic
  rw [encode, hop]
  exact if_neg (by simp [h])

/-- Settles O9: the three I-format instructions share one layout and one check of the offset. -/
theorem signExtensionInvertsTruncation : Obligations.SignExtensionInvertsTruncation := by
  unfold Obligations.SignExtensionInvertsTruncation
  refine ⟨fun v => ⟨signExtend16_toNat v, signExtend16_fits v⟩, fun n hlo hhi a b => ?_, fun n hn a b => ?_⟩
  · have hfits : decide (OffsetFits n) = true := decide_eq_true ⟨hlo, hhi⟩
    exact ⟨exists_word_of_offset hfits fun _ => rfl, exists_word_of_offset hfits fun _ => rfl,
      exists_word_of_offset hfits fun _ => rfl⟩
  · have hnot : decide (OffsetFits n) = false := decide_eq_false fun ⟨hlo, hhi⟩ => by omega
    exact ⟨encode_spec_of_not_wellFormed hnot, encode_spec_of_not_wellFormed hnot,
      encode_spec_of_not_wellFormed hnot⟩

/-! ### The encoder's arithmetic -/

/-- ORing a number into the cleared low bits of a shifted one is adding it, under any further shift. -/
theorem shiftLeft_or_shiftLeft {x y j : Nat} (k : Nat) (hy : y < 2 ^ j) :
    x <<< (j + k) ||| y <<< k = (x * 2 ^ j + y) <<< k := by
  rw [Nat.shiftLeft_add, ← Nat.shiftLeft_or_distrib, ← Nat.shiftLeft_add_eq_or_of_lt hy, Nat.shiftLeft_eq x j]

/-- The opcode and the register numbers shifted into place and ORed (R64, R66). -/
theorem or_registers (op : BitVec 3) (a b : RegNum) :
    op.toNat <<< 22 ||| a.val <<< 19 ||| b.val <<< 16 = (op.toNat * 2 ^ 6 + a.val * 2 ^ 3 + b.val) <<< 16 := by
  rw [shiftLeft_or_shiftLeft (j := 3) 19 a.isLt, shiftLeft_or_shiftLeft (j := 3) 16 b.isLt]
  congr 1
  omega

/-- The same with what stands in bits 15 to 0 (R64, R65). -/
theorem or_fields (op : BitVec 3) (a b : RegNum) {low : Nat} (hlow : low < 65536) :
    op.toNat <<< 22 ||| a.val <<< 19 ||| b.val <<< 16 ||| low =
      op.toNat * 2 ^ 22 + a.val * 2 ^ 19 + b.val * 2 ^ 16 + low := by
  rw [or_registers, ← Nat.shiftLeft_add_eq_or_of_lt hlow, Nat.shiftLeft_eq]
  omega

/-- The encoding of an instruction the table lists, by its word as a number. -/
theorem encode_eq_ofNat {c : Config} {i : Instr} {op : BitVec 3} {n : Nat}
    (hop : c.opcodeMap.opcodeOf i.mnemonic = some op) (hwf : i.wellFormed = true) (hn : (encodeFields op i).toNat = n) :
    encode c i = .ok (BitVec.ofNat 32 n) := by
  rw [encode_of_opcodeOf hop hwf, ← hn, BitVec.ofNat_toNat, BitVec.setWidth_eq]

theorem encodeR_toNat_eq_or (op : BitVec 3) (a b d : RegNum) :
    (encodeR op a b d).toNat = op.toNat <<< 22 ||| a.val <<< 19 ||| b.val <<< 16 ||| d.val := by
  rw [encodeR_toNat, or_fields op a b (by omega)]

theorem encodeI_toNat_eq_or (op : BitVec 3) (a b : RegNum) (off : Int) :
    (encodeI op a b off).toNat = op.toNat <<< 22 ||| a.val <<< 19 ||| b.val <<< 16 ||| (off % 65536).toNat := by
  rw [encodeI_toNat, or_fields op a b (by omega)]

theorem encodeJ_toNat_eq_or (op : BitVec 3) (a b : RegNum) :
    (encodeJ op a b).toNat = op.toNat <<< 22 ||| a.val <<< 19 ||| b.val <<< 16 := by
  rw [encodeJ_toNat, or_registers, Nat.shiftLeft_eq]
  omega

theorem encodeO_toNat_eq_shift (op : BitVec 3) : (encodeO op).toNat = op.toNat <<< 22 := by
  rw [encodeO_toNat, Nat.shiftLeft_eq]

/-- Settles O10: one equation per layout, whatever the table, and the examples by running the encoder. -/
theorem encoderShiftsAndOrsItsFields : Obligations.EncoderShiftsAndOrsItsFields := by
  unfold Obligations.EncoderShiftsAndOrsItsFields
  exact ⟨fun _ op a b d hop => encode_eq_ofNat hop rfl (encodeR_toNat_eq_or op a b d),
    fun _ op a b d hop => encode_eq_ofNat hop rfl (encodeR_toNat_eq_or op a b d),
    fun _ op a b v hv hop => encode_eq_ofNat hop (decide_eq_true hv) (encodeI_toNat_eq_or op a b v),
    fun _ op a b v hv hop => encode_eq_ofNat hop (decide_eq_true hv) (encodeI_toNat_eq_or op a b v),
    fun _ op a b v hv hop => encode_eq_ofNat hop (decide_eq_true hv) (encodeI_toNat_eq_or op a b v),
    fun _ op a b hop => encode_eq_ofNat hop rfl (encodeJ_toNat_eq_or op a b),
    fun _ op hop => encode_eq_ofNat hop rfl (encodeO_toNat_eq_shift op),
    fun _ op hop => encode_eq_ofNat hop rfl (encodeO_toNat_eq_shift op),
    by decide, by decide, by decide, by decide⟩

end Sys2Proof
end

section
/-! UnknownOpcodeAtRuntime, in the spec's configuration and in the others (30_encoding.md R56). -/

namespace Sys2Proof

open Sys2Proof.Machine

/-- With a full table and the masked decode no word is rejected (R56). -/
theorem decode_ne_error {c : Config} (hu : c.upperBits = .ignore) (hfull : ∀ op, c.opcodeMap.mnemonicOf op ≠ none)
    (w : Word) (e : DecodeError) : decode c w ≠ .error e := by
  obtain ⟨m, hm⟩ := Option.ne_none_iff_exists'.mp (hfull (opcodeField w))
  rw [decode_of_mnemonicOf (.inl hu) hm]
  exact fun h => by cases h

/-- No step of the spec's configuration raises UnknownOpcodeAtRuntime: not the limit, not the fetch, not an instruction,
and every word decodes (R56). -/
theorem step_run_ne_unknownOpcode {s t : State} (op : Int) (addr : Word) (h : step s = .next t) :
    t.run ≠ .faulted (.unknownOpcodeAtRuntime op) addr := by
  intro hrun
  obtain ⟨hr, ⟨-, rfl⟩ | ⟨-, e, hf, rfl⟩ | ⟨-, i, u, -, hu, rfl⟩⟩ := stepWith_cases h
  · cases hrun
  · obtain ⟨-, rfl⟩ | ⟨-, op', hd, -⟩ := fetchDecode_error hf
    · cases hrun
    · obtain ⟨i, hi⟩ := decode_spec_total (s.mem.read (signed s.pc).toNat)
      rw [hi] at hd
      cases hd
  · rw [State.complete_run] at hrun
    obtain hsame | ⟨-, hhalt⟩ | ⟨_, _, _, -, -, rfl⟩ := exec_run_cases hu
    · rw [hsame, hr] at hrun; cases hrun
    · rw [hhalt] at hrun; cases hrun
    · cases hrun

/-- Settles O39: the spec's table is full; each alternative makes the decoder reject the fetched word. -/
theorem unknownOpcodeNeedsAnotherConfiguration : Obligations.UnknownOpcodeNeedsAnotherConfiguration := by
  unfold Obligations.UnknownOpcodeNeedsAnotherConfiguration
  exact ⟨fun c w e hu hfull => decode_ne_error hu hfull w e,
    fun op => Option.isSome_iff_ne_none.mp (specOpcodeMap_total op),
    fun s t op addr h => step_run_ne_unknownOpcode op addr h,
    fun c s w hu hr hl hf hm => stepWith_decode_error hr hl hf (decode_of_no_mnemonic hu hm),
    fun c s w hu hr hl hf hw => ⟨_, stepWith_decode_error hr hl hf (decode_of_upperBits hu hw)⟩⟩

end Sys2Proof
end

section
/-! The R-format instructions (40_arith_logic.md R71 to R74): what `add` and `nand` write and leave unchanged, the two
readings of a sum, and the operations their sequences build. -/

namespace Sys2Proof

open Sys2Proof.Machine

/-- A word whose opcode is a mnemonic's number in the spec's table decodes to that mnemonic with the word's fields (R52). -/
theorem decode_spec_of_opcode {w : Word} {m : Mnemonic} {op : BitVec 3}
    (hop : Config.spec.opcodeMap.opcodeOf m = some op) (hw : bits w 24 22 = op.toNat) :
    decode Config.spec w = .ok (decodeFields m w) := by
  have hfield : opcodeField w = op := BitVec.eq_of_toNat_eq ((opcodeField_toNat w).trans hw)
  exact decode_of_mnemonicOf (.inl rfl) (hfield ▸ (opcodeOf_eq_some_iff rfl m op).mp hop)

/-- The sum of two patterns is the wrapped sum of their signed readings (R8). -/
theorem add_eq_wrap32 (x y : Word) : x + y = wrap32 (signed x + signed y) := by
  rw [wrap32, BitVec.ofInt_add, BitVec.ofInt_toInt, BitVec.ofInt_toInt]

/-- The signed readings are -2^31 to 2^31 - 1 (R8). -/
theorem signed_range (x : Word) : -2147483648 ≤ signed x ∧ signed x ≤ 2147483647 :=
  ⟨BitVec.le_toInt x, Int.le_of_lt_add_one (BitVec.toInt_lt (x := x))⟩

/-- The signed reading of a wrapped integer is the integer in signed range that differs from it by a multiple of 2^32 (R8). -/
theorem signed_wrap32_eq {n m : Int} (k : Int) (hk : n = m + 4294967296 * k)
    (hlo : -2147483648 ≤ m) (hhi : m ≤ 2147483647) : signed (wrap32 n) = m := by
  have hmod : (m + 4294967296 * k).bmod 4294967296 = m.bmod 4294967296 := Int.add_mul_bmod_self_left m 4294967296 k
  rw [signed, BitVec.toInt_ofInt, hk]
  exact hmod.trans (Int.bmod_eq_of_le (by omega) (by omega))

/-- Adding 1 to the complement of a pattern negates its signed reading, wrapped (R74). -/
theorem not_add_one_eq_wrap32 (x : Word) : ~~~x + 1 = wrap32 (-signed x) := by
  rw [wrap32, BitVec.ofInt_neg, BitVec.ofInt_toInt, BitVec.neg_eq_not_add]
  rfl

/-- Adding a complement and 1 subtracts the signed readings, wrapped (R74). -/
theorem add_not_add_one_eq_wrap32 (x y : Word) : x + ~~~y + 1 = wrap32 (signed x - signed y) := by
  rw [BitVec.add_assoc, not_add_one_eq_wrap32, Int.sub_eq_add_neg, wrap32, wrap32, BitVec.ofInt_add, BitVec.ofInt_toInt]

end Sys2Proof

namespace Sys2Proof.Machine

/-- What an R-format instruction leaves unchanged, and its pc (R71, R72). -/
theorem writeReg_advance_frame (s : State) (d : RegNum) (v : Word) :
    RegsSameBut d s (s.writeReg d v).advance ∧ (s.writeReg d v).advance.pc = s.pc + 1 ∧
      MemSame s (s.writeReg d v).advance ∧ StatusSame s (s.writeReg d v).advance :=
  ⟨fun _ hr => State.readReg_writeReg_other s d _ v hr, rfl, fun _ => rfl, rfl, rfl⟩

/-- Settles O11: the sum of patterns is the wrapped sum of their signed readings. -/
theorem addWritesTheWrappedSum : Obligations.AddWritesTheWrappedSum := by
  unfold Obligations.AddWritesTheWrappedSum
  refine ⟨fun w hw => ⟨_, _, _, decode_spec_of_opcode (m := .add) rfl hw, regAField_val w, regBField_val w,
    destRegField_val w⟩, fun a b d s => ⟨_, exec_add a b d s, ?_, writeReg_advance_frame s d _⟩⟩
  rw [State.readReg_advance, State.readReg_writeReg_same, add_eq_wrap32]

/-- A bit of a `nand` is 0 exactly when it is 1 in both sources (R72). -/
theorem getLsbD_not_and_eq_false_iff (x y : Word) {n : Nat} (hn : n < 32) :
    (~~~(x &&& y)).getLsbD n = false ↔ x.getLsbD n = true ∧ y.getLsbD n = true := by
  simp [hn]

/-- Settles O12: bit by bit, the complement of the AND. -/
theorem nandWritesTheComplementOfTheAnd : Obligations.NandWritesTheComplementOfTheAnd := by
  unfold Obligations.NandWritesTheComplementOfTheAnd
  refine ⟨fun w hw => ⟨_, _, _, decode_spec_of_opcode (m := .nand) rfl hw, regAField_val w, regBField_val w,
    destRegField_val w⟩, fun a b d s => ⟨_, exec_nand a b d s, fun n hn => ?_, writeReg_advance_frame s d _⟩⟩
  rw [State.readReg_advance, State.readReg_writeReg_same]
  exact getLsbD_not_and_eq_false_iff _ _ hn

/-- Settles O20: in each of the three ranges the signed reading is the exact sum less 0, 2^32 or -2^32. -/
theorem addIsSignedAndUnsignedAddition : Obligations.AddIsSignedAndUnsignedAddition := by
  unfold Obligations.AddIsSignedAndUnsignedAddition
  intro a b d s
  refine ⟨_, exec_add a b d s, ?_⟩
  rw [State.readReg_advance, State.readReg_writeReg_same]
  generalize s.readReg a = x
  generalize s.readReg b = y
  obtain ⟨hxlo, hxhi⟩ := signed_range x
  obtain ⟨hylo, hyhi⟩ := signed_range y
  refine ⟨BitVec.toNat_add x y, ?_⟩
  rw [add_eq_wrap32]
  exact ⟨fun hlo hhi => signed_wrap32_eq 0 (by omega) hlo hhi,
    fun habove => signed_wrap32_eq 1 (by omega) (by omega) (by omega),
    fun hbelow => signed_wrap32_eq (-1) (by omega) (by omega) (by omega)⟩

/-- A sequence that begins with `add` goes on from the state with the sum written. -/
@[simp] theorem execAll_add_cons (a b d : RegNum) (rest : List Instr) (s : State) :
    execAll (.add a b d :: rest) s = execAll rest (s.writeReg d (s.readReg a + s.readReg b)).advance := rfl

/-- A sequence that begins with `nand` goes on from the state with the complement of the AND written. -/
@[simp] theorem execAll_nand_cons (a b d : RegNum) (rest : List Instr) (s : State) :
    execAll (.nand a b d :: rest) s = execAll rest (s.writeReg d (~~~(s.readReg a &&& s.readReg b))).advance := rfl

/-- A sequence that has ended leaves the state it reached. -/
@[simp] theorem execAll_nil (s : State) : execAll [] s = .next s := rfl

/-- Settles O21: each sequence is run symbolically, and its destination holds a term of the old sources that is the
bit-vector identity of R74. -/
theorem nandAndAddBuildTheMissingOperations : Obligations.NandAndAddBuildTheMissingOperations := by
  unfold Obligations.NandAndAddBuildTheMissingOperations
  simp only [execAll_nand_cons, execAll_add_cons, execAll_nil, Host.Outcome.next.injEq, exists_eq_left',
    State.readReg_advance, State.readReg_writeReg_same]
  refine ⟨fun a d s => ?_, fun a b d s => ?_, fun a b d e s hbd hde => ?_, fun a d one s hone h1 => ?_,
    fun a b d one s had hone h1 => ?_⟩
  · rw [BitVec.and_self]
  · rw [BitVec.and_self, BitVec.not_not]
  · rw [State.readReg_writeReg_other _ _ _ _ hde, State.readReg_advance, State.readReg_writeReg_same,
      State.readReg_writeReg_other _ _ _ _ hbd, BitVec.and_self, BitVec.and_self, BitVec.not_and, BitVec.not_not,
      BitVec.not_not]
  · rw [State.readReg_writeReg_other _ _ _ _ hone, h1, BitVec.and_self, not_add_one_eq_wrap32]
  · rw [State.readReg_writeReg_other _ _ _ _ hone, State.readReg_advance, State.readReg_writeReg_other _ _ _ _ hone, h1,
      State.readReg_writeReg_other _ _ _ _ had, BitVec.and_self, add_not_add_one_eq_wrap32]

end Sys2Proof.Machine
end

section
/-! The memory instructions (41_load_store.md R76 to R78): the effective address, what `lw` and `sw` write and leave
unchanged in range, and what they leave unchanged where they raise. -/

namespace Sys2Proof.Machine

/-- The operands of an I-format word are the bit ranges of R44 and R46, the offset's sign in bit 15 (R48). -/
theorem iFormat_fields (w : Word) : (regAField w).val = bits w 21 19 ∧ (regBField w).val = bits w 18 16 ∧
    signExtend16 (offsetField w) = if bits w 15 15 = 1 then (bits w 15 0 : Int) - 65536 else bits w 15 0 :=
  ⟨regAField_val w, regBField_val w, signExtend16_offsetField w⟩

/-- What raising an error leaves unchanged: all but the run status (R92). -/
theorem raise_frame (s : State) (e : RunError) :
    RegsSame s (s.raise e) ∧ (s.raise e).pc = s.pc ∧ MemSame s (s.raise e) ∧ (s.raise e).icount = s.icount :=
  ⟨fun _ => rfl, rfl, fun _ => rfl, rfl⟩

/-- Settles O13: in range the word read is written to `regB`, out of range the access raises. -/
theorem lwLoadsTheWordOrRaises : Obligations.LwLoadsTheWordOrRaises := by
  unfold Obligations.LwLoadsTheWordOrRaises
  refine ⟨fun w hw => ?decodes, fun a b off s hlo hhi => ?inRange, fun a b off s hout => ?outOfRange⟩
  case decodes => exact ⟨_, _, _, decode_spec_of_opcode (m := .lw) rfl hw, iFormat_fields w⟩
  case inRange =>
    have hin : ¬ OutOfRange (effectiveAddress s a off) := by unfold OutOfRange; omega
    exact ⟨_, exec_lw_inRange hin, State.readReg_writeReg_same s b _, writeReg_advance_frame s b _⟩
  case outOfRange => exact ⟨_, exec_lw_outOfRange hout, rfl, raise_frame s _⟩

/-- Settles O14: in range one word is written, which canonical memory reads back, out of range the access raises. -/
theorem swStoresTheWordOrRaises : Obligations.SwStoresTheWordOrRaises := by
  unfold Obligations.SwStoresTheWordOrRaises
  refine ⟨fun w hw => ?decodes, fun a b off s hm hlo hhi => ?inRange, fun a b off s hout => ?outOfRange⟩
  case decodes => exact ⟨_, _, _, decode_spec_of_opcode (m := .sw) rfl hw, iFormat_fields w⟩
  case inRange =>
    have hin : ¬ OutOfRange (effectiveAddress s a off) := by unfold OutOfRange; omega
    exact ⟨_, exec_sw_inRange hin, Memory.read_write_same hm, fun _ hne => Memory.read_write_other hne,
      fun _ => rfl, rfl, rfl, rfl⟩
  case outOfRange => exact ⟨_, exec_sw_outOfRange hout, rfl, raise_frame s _⟩

/-- The effective address is the exact sum, wrapped and read as signed (R76). -/
theorem effectiveAddress_eq_signed_wrap32 (s : State) (a : RegNum) (off : Int) :
    effectiveAddress s a off = signed (wrap32 (signed (s.readReg a) + off)) := by
  rw [effectiveAddress, wrap32, wrap32, BitVec.ofInt_add, BitVec.ofInt_toInt]

/-- With an offset that fits, the effective address is the exact sum unless that sum overflows; then the two differ by
2^32 and neither is an address (D7). -/
theorem effectiveAddress_exact_or_outOfRange (s : State) (a : RegNum) {off : Int} (hoff : OffsetFits off) :
    effectiveAddress s a off = signed (s.readReg a) + off ∨
      (OutOfRange (effectiveAddress s a off) ∧ OutOfRange (signed (s.readReg a) + off)) := by
  obtain ⟨hlo, hhi⟩ := signed_range (s.readReg a)
  rw [effectiveAddress_eq_signed_wrap32]
  generalize signed (s.readReg a) = base at hlo hhi ⊢
  by_cases habove : 2147483647 < base + off
  · have hwrap : signed (wrap32 (base + off)) = base + off - 4294967296 :=
      signed_wrap32_eq 1 (by omega) (by omega) (by omega)
    exact .inr ⟨.inl (by omega), .inr (by omega)⟩
  · by_cases hbelow : base + off < -2147483648
    · have hwrap : signed (wrap32 (base + off)) = base + off + 4294967296 :=
        signed_wrap32_eq (-1) (by omega) (by omega) (by omega)
      exact .inr ⟨.inr (by omega), .inl (by omega)⟩
    · exact .inl (signed_wrap32_eq 0 (by omega) (by omega) (by omega))

/-- Settles O15: the bounds are those of the base and the offset, and a sum that wraps is out of range either way. -/
theorem effectiveAddressWrapIsNotObservable : Obligations.EffectiveAddressWrapIsNotObservable := by
  unfold Obligations.EffectiveAddressWrapIsNotObservable
  refine ⟨effectiveAddress_eq_signed_wrap32, fun s a off hoff => ?_⟩
  obtain ⟨hlo, hhi⟩ := signed_range (s.readReg a)
  refine ⟨by omega, by omega, ?_⟩
  rcases effectiveAddress_exact_or_outOfRange s a hoff with hexact | ⟨hwrapped, hsum⟩
  · exact ⟨by rw [hexact], fun _ => hexact⟩
  · exact ⟨iff_of_true hwrapped hsum, fun hin => absurd hwrapped hin⟩

end Sys2Proof.Machine
end

section
/-! The control transfers (42_control.md R80 to R82): where `beq` and `jalr` leave the pc, what they leave unchanged, and
the branch that loops for ever (70_reset_and_hazards.md R113). -/

namespace Sys2Proof.Machine

/-- The sequential pc is the wrapped integer successor (R8, R18). -/
theorem pc_add_one_eq_wrap32 (s : State) : s.pc + 1 = wrap32 (signed s.pc + 1) := add_eq_wrap32 s.pc 1

/-- The target of a taken branch is the exact target, wrapped (R80). -/
theorem branchTarget_eq_wrap32 (s : State) (off : Int) : branchTarget s off = wrap32 (signed s.pc + 1 + off) := by
  rw [branchTarget, State.pcNext, pc_add_one_eq_wrap32, wrap32, wrap32, ← BitVec.ofInt_add]

/-- The target of a taken branch is the integer sum where the pc is fetchable and the target is an address, though the
offset need not fit its field. -/
theorem signed_branchTarget_of_inRange {s : State} {off : Int} (hpc : ¬ OutOfRange (signed s.pc))
    (htarget : ¬ OutOfRange (signed s.pc + 1 + off)) : signed (branchTarget s off) = signed s.pc + 1 + off := by
  have hnext : signed s.pcNext = signed s.pc + 1 := signed_pc_add_one hpc
  unfold OutOfRange at htarget
  rw [branchTarget, signed_add_wrap32 (by omega) (by omega), hnext]

/-- What moving the pc alone leaves unchanged (R80). -/
theorem setPc_frame (s : State) (p : Word) :
    RegsSame s (s.setPc p) ∧ MemSame s (s.setPc p) ∧ StatusSame s (s.setPc p) :=
  ⟨fun _ => rfl, fun _ => rfl, rfl, rfl⟩

/-- What writing one register and moving the pc leaves unchanged (R82). -/
theorem writeReg_setPc_frame (s : State) (d : RegNum) (v p : Word) :
    RegsSameBut d s ((s.writeReg d v).setPc p) ∧ MemSame s ((s.writeReg d v).setPc p) ∧
      StatusSame s ((s.writeReg d v).setPc p) :=
  ⟨fun _ hr => State.readReg_writeReg_other s d _ v hr, fun _ => rfl, rfl, rfl⟩

/-- Settles O16: where the registers are equal the branch is taken, where not the pc advances; either way the pc alone
moves. -/
theorem beqBranchesExactlyOnEquality : Obligations.BeqBranchesExactlyOnEquality := by
  unfold Obligations.BeqBranchesExactlyOnEquality
  refine ⟨fun w hw => ⟨_, _, _, decode_spec_of_opcode (m := .beq) rfl hw, iFormat_fields w⟩, fun a b off s => ?_⟩
  by_cases heq : s.readReg a = s.readReg b
  · exact ⟨_, exec_beq_taken heq, fun _ => branchTarget_eq_wrap32 s off, fun hne => absurd heq hne, setPc_frame s _⟩
  · exact ⟨_, exec_beq_notTaken heq, fun h => absurd h heq, fun _ => pc_add_one_eq_wrap32 s, setPc_frame s _⟩

/-- Settles O17: the target is read in the old state, so the link written to `regB` cannot change it. -/
theorem jalrLinksAndJumpsToTheOldValue : Obligations.JalrLinksAndJumpsToTheOldValue := by
  unfold Obligations.JalrLinksAndJumpsToTheOldValue
  refine ⟨fun w hw => ⟨_, _, decode_spec_of_opcode (m := .jalr) rfl hw, regAField_val w, regBField_val w⟩,
    fun a b s => ⟨_, exec_jalr a b s, rfl, ?link, writeReg_setPc_frame s b _ _⟩⟩
  case link => rw [State.readReg_setPc, State.readReg_writeReg_same, pc_add_one_eq_wrap32]

/-- Settles O38: the assembler subtracts the `pc + 1` that the branch adds. -/
theorem takenBranchReachesItsSymbol : Obligations.TakenBranchReachesItsSymbol := by
  unfold Obligations.TakenBranchReachesItsSymbol
  refine ⟨fun sym label target address hlit haddr => ?operand, fun a b target s hlo hhi htop heq => ?branch⟩
  case operand => simp only [branchOperand, hlit, haddr]
  case branch =>
    have hsum : signed s.pc + 1 + ((target : Int) - (signed s.pc + 1)) = target := add_sub_cancel _ _
    have hpc : ¬ OutOfRange (signed s.pc) := by unfold OutOfRange; omega
    have htarget : ¬ OutOfRange (target : Int) := by unfold OutOfRange; omega
    exact ⟨_, exec_beq_taken heq, (signed_branchTarget_of_inRange hpc (hsum.symm ▸ htarget)).trans hsum⟩

/-- Completing a step of a machine that still runs counts one and changes nothing else (R25). -/
theorem State.complete_of_running {s : State} (h : s.run = .running) :
    s.complete = { s with icount := s.icount + 1 } := by
  unfold State.complete; rw [h]

/-- A taken branch with offset -1 leaves the pc on itself (R113). -/
theorem branchTarget_neg_one (s : State) : branchTarget s (-1) = s.pc := by
  rw [branchTarget_eq_wrap32, Int.add_neg_cancel_right, wrap32, BitVec.ofInt_toInt]

/-- One step of a branch to itself counts, and changes nothing else. -/
theorem stepWith_selfBranch {s : State} {r : RegNum} (hr : s.run = .running)
    (hf : fetchDecode Config.spec s = .ok (.beq r r (-1))) :
    stepWith Config.spec s = .next { s with icount := s.icount + 1 } := by
  have hexec : exec (.beq r r (-1)) s = .next s := by
    rw [exec_beq_taken rfl, branchTarget_neg_one]; rfl
  rw [stepWith_exec hr (limitReached_spec s) hf hexec, State.complete_of_running hr]

/-- Settles O49: by induction on the number of steps; each leaves a state that runs and fetches the same branch. The
spec's configuration has no step limit to end the loop (R98, D10). -/
theorem branchToItselfNeverEnds : Obligations.BranchToItselfNeverEnds := by
  unfold Obligations.BranchToItselfNeverEnds
  intro n s r hr hf
  induction n generalizing s with
  | zero => rfl
  | succ n ih =>
    have hsame : fetchDecode Config.spec { s with icount := s.icount + 1 } = .ok (.beq r r (-1)) :=
      (fetchDecode_congr rfl rfl).trans hf
    rw [runWith_succ (stepWith_selfBranch hr hf), ih { s with icount := s.icount + 1 } hr hsame, Nat.add_assoc,
      Nat.add_comm 1 n]

end Sys2Proof.Machine
end

section
/-! The operand-less instructions (43_system.md R84 to R86): the halt that advances the pc and ends the run, and the
instruction that advances the pc alone. -/

namespace Sys2Proof.Machine

/-- A completed `halt` advances the pc, ends the run and is counted; registers and memory stand (R84, R86). -/
theorem complete_halt_advance (s : State) :
    s.advance.halt.complete = { s with pc := s.pc + 1, run := .halted, icount := s.icount + 1 } := rfl

/-- The step of a running machine that fetches a `halt` completes it. -/
theorem step_fetchedHalt {s : State} (hr : s.run = .running) (hf : fetchDecode Config.spec s = .ok .halt) :
    step s = .next { s with pc := s.pc + 1, run := .halted, icount := s.icount + 1 } := by
  rw [step, stepWith_exec hr (limitReached_spec s) hf (exec_halt s), complete_halt_advance]

/-- A stopped machine has no next step (R10, R97). -/
theorem step_ne_next_of_not_running {s : State} (hr : s.run ≠ .running) (u : State) : step s ≠ .next u :=
  fun h => hr (run_eq_running_of_stepWith h)

/-- Settles O18: the `halt` was fetched in range, so its pc advances without overflow, and a halted machine takes no
step. -/
theorem haltAdvancesThenStops : Obligations.HaltAdvancesThenStops := by
  unfold Obligations.HaltAdvancesThenStops
  have hdecode : ∀ w : Word, bits w 24 22 = 6 → decode Config.spec w = .ok .halt :=
    fun w hw => decode_spec_of_opcode (m := .halt) rfl hw
  refine ⟨hdecode, fun s => ?executes, fun s w hr hf hw => ?steps⟩
  case executes => exact ⟨_, exec_halt s, rfl, rfl, fun _ => rfl, fun _ => rfl, rfl⟩
  case steps =>
    have hfetched : fetchDecode Config.spec s = .ok .halt := fetchDecode_of_fetch hf (hdecode w hw)
    obtain ⟨hpc, -⟩ := fetchDecode_ok hfetched
    exact ⟨_, step_fetchedHalt hr hfetched, rfl, signed_pc_add_one hpc, rfl, fun _ => rfl, fun _ => rfl,
      step_ne_next_of_not_running nofun, fun n => runWith_of_not_running n nofun⟩

/-- Settles O19: `noop` moves the pc, and nothing else. -/
theorem noopOnlyAdvancesThePc : Obligations.NoopOnlyAdvancesThePc := by
  unfold Obligations.NoopOnlyAdvancesThePc
  exact ⟨fun w hw => decode_spec_of_opcode (m := .noop) rfl hw,
    fun s => ⟨_, exec_noop s, rfl, setPc_frame s _⟩⟩

end Sys2Proof.Machine
end

section
/-! The step limit (60_exceptions.md R98): the run it does not reach, the run it cuts short, and the bound it keeps. -/

namespace Sys2Proof.Machine

/-! ### One step -/

/-- A count below the limit passes the check. -/
theorem limitReached_eq_false_of_lt {c : Config} {m : Nat} {s : State} (hm : c.maxSteps = some m) (h : s.icount < m) :
    limitReached c s = false := by
  simp [limitReached, hm, h]

/-- Where the check passes, nothing else in a step reads the limit. -/
theorem stepWith_eq_unlimited {c : Config} {s : State} (hl : limitReached c s = false) :
    stepWith c s = stepWith { c with maxSteps := none } s := by
  have hnone : limitReached { c with maxSteps := none } s = false := rfl
  unfold stepWith stepRunning
  rw [hl, hnone]
  rfl

/-- A step adds at most one to the count: it completes, or it raises and leaves the count (R25, R92). -/
theorem stepWith_icount_le_succ {c : Config} {s t : State} (h : stepWith c s = .next t) : t.icount ≤ s.icount + 1 := by
  obtain ⟨-, hcount⟩ | ⟨-, -, hcount⟩ | ⟨e, rfl⟩ := stepWith_outcomes h
  · exact hcount.le
  · exact hcount.le
  · exact Nat.le_succ _

/-- A step keeps the count within the limit: the step that would pass it raises. -/
theorem stepWith_icount_le_limit {c : Config} {m : Nat} {s t : State} (hm : c.maxSteps = some m)
    (h : stepWith c s = .next t) (hle : s.icount ≤ m) : t.icount ≤ m := by
  obtain ⟨e, rfl, -⟩ | ⟨hl, i, u, -, hu, hsafe, rfl⟩ := stepWith_raises_or_completes h
  · exact hle
  · rw [complete_icount_of_exec hu hsafe]
    exact succ_icount_le_of_limit hl hm

/-! ### Runs -/

/-- What every step keeps, every run keeps. -/
theorem runWith_keeps {c : Config} {P : State → Prop} (hstep : ∀ s t, stepWith c s = .next t → P s → P t)
    (n : Nat) {s : State} (hs : P s) : P (runWith c n s) := by
  induction n generalizing s with
  | zero => exact hs
  | succ n ih =>
    by_cases hr : s.run = .running
    · obtain ⟨t, ht⟩ := stepWith_answers_next c hr
      rw [runWith_succ ht]
      exact ih (hstep s t ht hs)
    · rwa [runWith_of_not_running _ hr]

/-- A run that cannot reach the limit is the unlimited run: each step passes the check and adds at most one. -/
theorem runWith_eq_unlimited {c : Config} {m n : Nat} {s : State} (hm : c.maxSteps = some m) (h : s.icount + n ≤ m) :
    runWith c n s = runWith { c with maxSteps := none } n s := by
  induction n generalizing s with
  | zero => rfl
  | succ n ih =>
    by_cases hr : s.run = .running
    · obtain ⟨t, ht⟩ := stepWith_answers_next c hr
      have ht' := (stepWith_eq_unlimited (limitReached_eq_false_of_lt hm (by omega))).symm.trans ht
      have hcount := stepWith_icount_le_succ ht
      rw [runWith_succ ht, runWith_succ ht', ih (by omega)]
    · rw [runWith_of_not_running _ hr, runWith_of_not_running _ hr]

/-- A run under any limit ends where the unlimited run stands after some of its steps, or raises there. -/
theorem runWith_is_unlimited_prefix (c : Config) (n : Nat) (s : State) :
    ∃ k, k ≤ n ∧ (runWith c n s = runWith { c with maxSteps := none } k s ∨
      runWith c n s = (runWith { c with maxSteps := none } k s).raise
        (.instructionLimitExceeded (runWith { c with maxSteps := none } k s).icount)) := by
  induction n generalizing s with
  | zero => exact ⟨0, le_rfl, .inl rfl⟩
  | succ n ih =>
    by_cases hr : s.run = .running
    · cases hl : limitReached c s with
      | true =>
        have hstopped : (s.raise (.instructionLimitExceeded s.icount)).run ≠ .running := nofun
        refine ⟨0, Nat.zero_le _, .inr ?_⟩
        rw [runWith_succ (stepWith_limit hr hl), runWith_of_not_running n hstopped, runWith_zero]
      | false =>
        obtain ⟨t, ht⟩ := stepWith_answers_next c hr
        obtain ⟨k, hk, hprefix⟩ := ih t
        refine ⟨k + 1, Nat.succ_le_succ hk, ?_⟩
        rwa [runWith_succ ht, runWith_succ ((stepWith_eq_unlimited hl).symm.trans ht)]
    · exact ⟨0, Nat.zero_le _, .inl (runWith_of_not_running _ hr)⟩

/-- Settles O36: each clause by induction on the number of steps, the limited and the unlimited machine side by side. -/
theorem limitedRunIsAPrefixOfTheUnlimitedRun : Obligations.LimitedRunIsAPrefixOfTheUnlimitedRun := by
  unfold Obligations.LimitedRunIsAPrefixOfTheUnlimitedRun
  exact fun c m n s hm => ⟨runWith_eq_unlimited hm, runWith_is_unlimited_prefix c n s⟩

/-- Settles O35: a reached limit raises in place of the step, one not reached is not read, and no step passes it. -/
theorem limitIsTestedBeforeTheFetch : Obligations.LimitIsTestedBeforeTheFetch := by
  unfold Obligations.LimitIsTestedBeforeTheFetch
  refine ⟨fun c m s hm hr hreached => ?_, fun c m s hm hlt => ?_, fun c m n s hm hle => ?_⟩
  · have hl : limitReached c s = true := limitReached_iff.mpr ⟨m, hm, hreached⟩
    exact ⟨_, stepWith_limit hr hl, rfl, rfl, rfl, rfl, rfl⟩
  · exact stepWith_eq_unlimited (limitReached_eq_false_of_lt hm hlt)
  · exact runWith_keeps (P := fun u => u.icount ≤ m) (fun _ _ h => stepWith_icount_le_limit hm h) n hle

end Sys2Proof.Machine
end

section
/-! The checks of a step in their order (60_exceptions.md R93), the error that changes the run status alone (R92), the
out-of-range pc that the next fetch finds (R91), and the machine that has stopped (R97). -/

namespace Sys2Proof.Machine

/-- A pc out of range ends the step at its fetch, before the decode (R91). -/
theorem fetchDecode_outOfRange (c : Config) {s : State} (h : OutOfRange (signed s.pc)) :
    fetchDecode c s = .error (.fetchAddressOutOfRange (signed s.pc)) := by
  simp only [fetchDecode, fetch_outOfRange h]

/-- A load or store out of range raises (R77, R78). -/
theorem exec_access_outOfRange {i : Instr} {s : State} {a b : RegNum} {off : Int}
    (hi : i = .lw a b off ∨ i = .sw a b off) (h : OutOfRange (effectiveAddress s a off)) :
    exec i s = .next (s.raise (.memoryAddressOutOfRange (effectiveAddress s a off))) := by
  obtain rfl | rfl := hi
  · exact exec_lw_outOfRange h
  · exact exec_sw_outOfRange h

/-- An instruction with no access out of range raises nothing. -/
theorem exec_safe_of_inRange {i : Instr} {s t : State} (h : exec i s = .next t) (hr : s.run = .running)
    (hin : ∀ a b off, (i = .lw a b off ∨ i = .sw a b off) → ¬ OutOfRange (effectiveAddress s a off)) : Safe t := by
  obtain hsame | ⟨-, hhalt⟩ | ⟨a, b, off, hi, hout, -⟩ := exec_run_cases h
  · exact safe_of_running (hsame.trans hr)
  · simp [Safe, hhalt]
  · exact absurd hout (hin a b off hi)

/-- Settles O29: each check is reached where those before it pass, and an instruction that passes all four is safe. -/
theorem checksComeInOrder : Obligations.ChecksComeInOrder := by
  unfold Obligations.ChecksComeInOrder
  refine fun c s hr => ⟨stepWith_limit hr,
    fun hl hout => stepWith_fetchDecode_error hr hl (fetchDecode_outOfRange c hout),
    fun hl hpc op hd => stepWith_decode_error hr hl (fetch_inRange hpc) hd, fun hl hpc i hd => ?_⟩
  have hf : fetchDecode c s = .ok i := fetchDecode_of_fetch (fetch_inRange hpc) hd
  refine ⟨fun a b off hi hout => stepWith_exec hr hl hf (exec_access_outOfRange hi hout), fun hin => ?_⟩
  obtain ⟨t, ht⟩ := exec_answers_next i s
  exact ⟨t.complete, stepWith_exec hr hl hf ht, safe_complete.mpr (exec_safe_of_inRange ht hr hin)⟩

/-- A step that ends `Faulted` is a raise of the error it records, at the pc it began with (R92). -/
theorem stepWith_eq_raise_of_faulted {c : Config} {s t : State} {e : RunError} {addr : Word}
    (h : stepWith c s = .next t) (ht : t.run = .faulted e addr) : addr = s.pc ∧ t = s.raise e := by
  obtain ⟨e', rfl, -⟩ | ⟨-, i, u, -, -, hsafe, rfl⟩ := stepWith_raises_or_completes h
  · obtain ⟨rfl, rfl⟩ := RunStatus.faulted.inj ht
    exact ⟨rfl, rfl⟩
  · exact absurd ht (safe_complete.mpr hsafe e addr)

/-- Settles O31: the step is a raise, which changes the run status alone and leaves a state that has no step. -/
theorem errorsArePrecise : Obligations.ErrorsArePrecise := by
  unfold Obligations.ErrorsArePrecise
  intro c s t e addr h ht
  obtain ⟨rfl, rfl⟩ := stepWith_eq_raise_of_faulted h ht
  exact ⟨rfl, rfl, rfl, rfl, rfl, rfl⟩

/-- The advance table has three kinds of row: the next address, a taken branch, a jump to a register (R18, R91). -/
theorem advancedPc_cases (i : Instr) (s : State) :
    advancedPc i s = s.pc + 1 ∨
    (∃ a b off, i = .beq a b off ∧ RegsEqual s a b ∧ advancedPc i s = branchTarget s off) ∨
    (∃ a b, i = .jalr a b ∧ advancedPc i s = s.readReg a) := by
  cases i with
  | add a b d => exact .inl rfl
  | nand a b d => exact .inl rfl
  | lw a b off => exact .inl rfl
  | sw a b off => exact .inl rfl
  | beq a b off =>
    by_cases he : RegsEqual s a b
    · exact .inr (.inl ⟨a, b, off, rfl, he, if_pos he⟩)
    · exact .inl (if_neg he)
  | jalr a b => exact .inr (.inr ⟨a, b, rfl, rfl⟩)
  | halt => exact .inl rfl
  | noop => exact .inl rfl

/-- A fetched instruction moves the pc out of range from the last address, as a taken `beq`, or as a `jalr` (R91). -/
theorem advancedPc_outOfRange_cases {c : Config} {i : Instr} {s : State} (hf : fetchDecode c s = .ok i)
    (hout : OutOfRange (signed (advancedPc i s))) :
    (signed s.pc = 65535 ∧ signed (advancedPc i s) = 65536) ∨
    (∃ a b off, i = .beq a b off ∧ s.readReg a = s.readReg b ∧
      signed (advancedPc i s) = signed s.pc + 1 + off) ∨
    (∃ a b, i = .jalr a b ∧ advancedPc i s = s.readReg a) := by
  obtain ⟨hpc, -⟩ := fetchDecode_ok hf
  obtain hnext | ⟨a, b, off, rfl, heq, htaken⟩ | hjump := advancedPc_cases i s
  · rw [hnext, signed_pc_add_one hpc] at hout ⊢
    unfold OutOfRange at hpc hout
    exact .inl ⟨by omega, by omega⟩
  · have hoff : OffsetFits off := of_decide_eq_true (wellFormed_of_fetchDecode hf)
    exact .inr (.inl ⟨a, b, off, rfl, heq, by rw [htaken, signed_branchTarget hpc hoff]⟩)
  · exact .inr (.inr hjump)

/-- Settles O30: the step is safe, so its pc is the table's and it is counted; the fetch after it raises. -/
theorem outOfRangeTargetFaultsAtTheNextFetch : Obligations.OutOfRangeTargetFaultsAtTheNextFetch := by
  unfold Obligations.OutOfRangeTargetFaultsAtTheNextFetch
  intro s t i hf h ht hout
  have hsafe : Safe t := safe_of_running ht
  have hpc : t.pc = advancedPc i s := stepWith_pc_of_safe h hsafe hf
  refine ⟨?cause, stepWith_icount_of_safe h hsafe, _, stepWith_fetch_outOfRange ht hout, rfl,
    fun _ => rfl, fun _ => rfl, rfl, rfl⟩
  case cause =>
    rw [hpc] at hout ⊢
    exact advancedPc_outOfRange_cases hf hout

/-- Settles O33: a run takes no step from a state that is not running. -/
theorem stoppedMachineStaysAsItIs : Obligations.StoppedMachineStaysAsItIs := by
  unfold Obligations.StoppedMachineStaysAsItIs
  exact fun c n s hr => runWith_of_not_running n hr

end Sys2Proof.Machine
end

section
/-! The trace (60_exceptions.md R103): one observation for each step taken, and one of the final state. -/

namespace Sys2Proof.Machine

theorem traceWith_succ {c : Config} {n : Nat} {s t : State} (h : stepWith c s = .next t) :
    traceWith c (n + 1) s = s.observe :: traceWith c n t := by
  simp only [traceWith, h]

/-- The trace of a stopped machine is its final state alone. -/
theorem traceWith_of_not_running {c : Config} {s : State} (n : Nat) (hr : s.run ≠ .running) :
    traceWith c n s = [s.observe] := by
  cases n with
  | zero => rfl
  | succ n =>
    rw [traceWith]
    split
    · next ht => exact absurd (run_eq_running_of_stepWith ht) hr
    · rfl
    · rfl

/-- The trace opens with the state it starts from. -/
theorem traceWith_head (c : Config) (n : Nat) (s : State) : (traceWith c n s)[0]? = some s.observe := by
  by_cases hr : s.run = .running
  · cases n with
    | zero => rfl
    | succ n =>
      obtain ⟨t, ht⟩ := stepWith_answers_next c hr
      rw [traceWith_succ ht]; rfl
  · rw [traceWith_of_not_running n hr]; rfl

/-- The trace ends with the state the run ends in. -/
theorem traceWith_getLast? (c : Config) (n : Nat) (s : State) :
    (traceWith c n s).getLast? = some (runWith c n s).observe := by
  induction n generalizing s with
  | zero => rfl
  | succ n ih =>
    by_cases hr : s.run = .running
    · obtain ⟨t, ht⟩ := stepWith_answers_next c hr
      rw [traceWith_succ ht, runWith_succ ht, List.getLast?_cons, ih, Option.getD_some]
    · rw [traceWith_of_not_running _ hr, runWith_of_not_running _ hr]; rfl

/-- `k` steps that are all taken put `k` observations before the trace of the state they reach. -/
theorem traceWith_after_steps {c : Config} {k : Nat} {s : State} (n : Nat)
    (hrun : ∀ j, j < k → (runWith c j s).run = .running) :
    ∃ earlier : List Observation, earlier.length = k ∧
      traceWith c (k + n) s = earlier ++ traceWith c n (runWith c k s) := by
  induction k generalizing s with
  | zero => exact ⟨[], rfl, by rw [Nat.zero_add, runWith_zero, List.nil_append]⟩
  | succ k ih =>
    obtain ⟨t, ht⟩ : ∃ t, stepWith c s = .next t := stepWith_answers_next c (hrun 0 k.succ_pos)
    have hrunT : ∀ j, j < k → (runWith c j t).run = .running := fun j hj => by
      rw [← runWith_succ ht]; exact hrun (j + 1) (Nat.succ_lt_succ hj)
    obtain ⟨earlier, hlength, htrace⟩ := ih hrunT
    refine ⟨s.observe :: earlier, congrArg Nat.succ hlength, ?_⟩
    rw [Nat.succ_add, traceWith_succ ht, htrace, runWith_succ ht, List.cons_append]

/-- Settles O45: after the `k` steps taken stands the trace of the state they reach, which opens with that state and holds
nothing else where no step is left to take. -/
theorem traceShowsEachStateBeforeItsStep : Obligations.TraceShowsEachStateBeforeItsStep := by
  unfold Obligations.TraceShowsEachStateBeforeItsStep
  refine fun c n s => ⟨fun k hk hrun => ?_, traceWith_getLast? c n s⟩
  obtain ⟨left, rfl⟩ := Nat.exists_eq_add_of_le hk
  obtain ⟨earlier, hlength, htrace⟩ := traceWith_after_steps left hrun
  rw [htrace]
  refine ⟨?entry, fun hend => ?length⟩
  case entry => rw [List.getElem?_append_right hlength.le, hlength, Nat.sub_self, traceWith_head]
  case length =>
    have hlast : traceWith c left (runWith c k s) = [(runWith c k s).observe] := by
      obtain hall | hstopped := hend
      · obtain rfl : left = 0 := by omega
        rfl
      · exact traceWith_of_not_running left hstopped
    rw [hlast, List.length_append, hlength, List.length_singleton]

end Sys2Proof.Machine
end

section
/-! The words an image places in memory, and the images reset accepts and refuses (70_reset_and_hazards.md R106,
R107). -/

namespace Sys2Proof.Machine

/-! ### Loading words -/

/-- A load leaves the addresses below and above its words alone. -/
theorem Memory.read_load_outside {words : List Word} {m : Memory} {a b : Nat} (h : b < a ∨ a + words.length ≤ b) :
    (m.load a words).read b = m.read b := by
  induction words generalizing m a with
  | nil => rfl
  | cons w rest ih =>
    rw [List.length_cons] at h
    rw [Memory.load, ih (by omega), Memory.read_write_other (by omega)]

/-- Each loaded word is read at its own address: those loaded after it lie above it. -/
theorem Memory.read_load {words : List Word} {m : Memory} {a k : Nat} {w : Word} (hm : m.wf = true)
    (ha : a + words.length ≤ memWords) (hw : words[k]? = some w) : (m.load a words).read (a + k) = w := by
  induction words generalizing m a k with
  | nil => cases hw
  | cons v rest ih =>
    rw [List.length_cons] at ha
    rw [Memory.load]
    cases k with
    | zero =>
      obtain rfl : v = w := Option.some.inj hw
      rw [Memory.read_load_outside (by omega)]
      exact Memory.read_write_same hm
    | succ k =>
      have hrest : ((m.write a v).load (a + 1) rest).read (a + 1 + k) = w :=
        ih (Memory.wf_write hm (by omega)) (by omega) hw
      rwa [Nat.add_right_comm] at hrest

/-! ### The images reset accepts -/

/-- The two conditions of R107 on an image: memory has a word for each element, and each is a 32-bit value. -/
def FitsMemory (image : List Int) : Prop := image.length ≤ memWords ∧ ∀ v ∈ image, ImageElementFits v

/-- The state of R106: reset, with the image's words from address 0. -/
def State.loaded (image : List Int) : State := { State.reset with mem := Memory.load [] 0 (image.map wrap32) }

/-- Everything reset can answer: it loads an image that meets R107's conditions, and refuses any other. -/
theorem resetWith_cases (image : List Int) :
    (FitsMemory image ∧ resetWith image = .next (State.loaded image)) ∨
    (¬ FitsMemory image ∧ ∃ r, resetWith image = .refused r) := by
  unfold resetWith
  by_cases hlong : image.length > memWords
  · rw [if_pos hlong]
    exact .inr ⟨fun hfits => absurd hfits.1 (Nat.not_le.mpr hlong), _, rfl⟩
  · rw [if_neg hlong]
    split
    · next v hv =>
      have hbad : ¬ ImageElementFits v := by
        simpa only [Bool.not_eq_true', decide_eq_false_iff_not] using List.find?_some hv
      exact .inr ⟨fun hfits => hbad (hfits.2 v (List.mem_of_find?_eq_some hv)), _, rfl⟩
    · next hnone =>
      exact .inl ⟨⟨Nat.not_lt.mp hlong, fun v hv => by simpa using List.find?_eq_none.mp hnone v hv⟩, rfl⟩

/-- An image that meets R107's conditions is loaded. -/
theorem resetWith_of_fits {image : List Int} (h : FitsMemory image) : resetWith image = .next (State.loaded image) := by
  obtain ⟨-, hnext⟩ | ⟨hnot, -⟩ := resetWith_cases image
  · exact hnext
  · exact absurd h hnot

/-- Only an image that meets R107's conditions gives a state, the one with the image loaded. -/
theorem resetWith_next {image : List Int} {s : State} (h : resetWith image = .next s) :
    FitsMemory image ∧ s = State.loaded image := by
  obtain ⟨hfits, hnext⟩ | ⟨-, r, hrefused⟩ := resetWith_cases image
  · exact ⟨hfits, Host.Outcome.next.inj (h.symm.trans hnext)⟩
  · cases h.symm.trans hrefused

/-- Reset refuses exactly the images that break a condition of R107. -/
theorem resetWith_refused_iff (image : List Int) : (∃ r, resetWith image = .refused r) ↔ ¬ FitsMemory image := by
  obtain ⟨hfits, hnext⟩ | hrefused := resetWith_cases image
  · exact ⟨fun ⟨r, hr⟩ => (nomatch hnext.symm.trans hr), fun hnot => absurd hfits hnot⟩
  · exact ⟨fun _ => hrefused.1, fun _ => hrefused.2⟩

/-- The conditions of R107, broken. -/
theorem not_fitsMemory_iff (image : List Int) : ¬ FitsMemory image ↔
    65536 < image.length ∨ ∃ v, v ∈ image ∧ (v < -2147483648 ∨ 2147483647 < v) := by
  have hvalue : ∀ v, ¬ ImageElementFits v ↔ v < -2147483648 ∨ 2147483647 < v := fun v => by
    unfold ImageElementFits; omega
  simp only [FitsMemory, not_and_or, not_le, not_forall, exists_prop, hvalue, memWords]

/-- The words of an accepted image fit in memory from address 0. -/
theorem FitsMemory.words_length_le {image : List Int} (h : FitsMemory image) :
    0 + (image.map wrap32).length ≤ memWords := by
  rw [Nat.zero_add, List.length_map]
  exact h.1

/-- A loaded image stands in canonical memory, in a running machine that has counted nothing. -/
theorem Inv.loaded (c : Config) {image : List Int} (h : FitsMemory image) : Inv c (State.loaded image) where
  memory := Memory.wf_load Memory.wf_nil h.words_length_le
  status := trivial
  limit := fun n _ => Nat.zero_le n

/-- Settles O42: what reset answers is a loaded image, whose memory is canonical by induction on its words. -/
theorem everyLoadedImageSatisfiesTheInvariant : Obligations.EveryLoadedImageSatisfiesTheInvariant := by
  unfold Obligations.EveryLoadedImageSatisfiesTheInvariant
  intro c image s h
  obtain ⟨hfits, rfl⟩ := resetWith_next h
  exact Inv.loaded c hfits

/-- Settles O43: the image's words are read where they were loaded, and the empty memory of reset past them. -/
theorem resetLoadsTheImage : Obligations.ResetLoadsTheImage := by
  unfold Obligations.ResetLoadsTheImage
  intro image hlen hvalues
  have hfits : FitsMemory image := ⟨hlen, hvalues⟩
  refine ⟨_, resetWith_of_fits hfits, State.reset_readReg, rfl, rfl, rfl, fun a v ha => ?image, fun a ha => ?zeros⟩
  case image =>
    have hword : (image.map wrap32)[a]? = some (wrap32 v) := by rw [List.getElem?_map, ha, Option.map_some]
    have hread := Memory.read_load Memory.wf_nil hfits.words_length_le hword
    rwa [Nat.zero_add] at hread
  case zeros => exact Memory.read_load_outside (.inr (by simpa using ha))

/-! ### The empty image run to the end of memory -/

/-- States that agree on each register and on the other fields are equal. -/
theorem State.eq_of_readReg {s t : State} (hx : ∀ r, s.readReg r = t.readReg r) (hpc : s.pc = t.pc)
    (hmem : s.mem = t.mem) (hrun : s.run = t.run) (hcount : s.icount = t.icount) : s = t := by
  cases s
  cases t
  simp only [State.mk.injEq]
  exact ⟨Vector.ext fun i hi => hx ⟨i, hi⟩, hpc, hmem, hrun, hcount⟩

/-- Reset after `k` steps over the zero cells: only the pc and the count have moved. -/
def resetAfter (k : Nat) : State := { State.reset with pc := BitVec.ofNat 32 k, icount := k }

/-- The pc of that state is `k`, up to the fetch that fails. -/
theorem signed_resetAfter_pc {k : Nat} (h : k ≤ 65536) : signed (resetAfter k).pc = k := by
  change (BitVec.ofNat 32 k).toInt = k
  rw [BitVec.toInt_ofNat', Int.bmod_eq_of_le (by omega) (by omega)]

/-- `add 0 0 0` from registers that are all 0 moves the pc and the count alone. -/
theorem stepWith_resetAfter {k : Nat} (h : k < 65536) :
    stepWith Config.spec (resetAfter k) = .next (resetAfter (k + 1)) := by
  have hin : ¬ OutOfRange (signed (resetAfter k).pc) := by
    rw [signed_resetAfter_pc h.le]; unfold OutOfRange; omega
  obtain ⟨t, hstep, hrun, hpc, hmem, hcount, h0, hregs⟩ := stepWith_zeroCell (s := resetAfter k) rfl hin rfl
  have hzero : ∀ j r, (resetAfter j).readReg r = 0 := fun _ => State.reset_readReg
  rw [hstep, State.eq_of_readReg (t := resetAfter (k + 1)) (fun r => ?regs)
    (hpc.trans (BitVec.ofNat_add k 1).symm) hmem hrun hcount]
  case regs =>
    by_cases hr : r = 0
    · rw [hr, h0, hzero, hzero]; rfl
    · rw [hregs r hr, hzero, hzero]

/-- A run over zero cells that stays inside memory. -/
theorem runWith_resetAfter {n k : Nat} (h : k + n ≤ 65536) :
    runWith Config.spec n (resetAfter k) = resetAfter (k + n) := by
  induction n generalizing k with
  | zero => rfl
  | succ n ih =>
    rw [runWith_succ (stepWith_resetAfter (by omega)), ih (by omega), Nat.succ_add_eq_add_succ]

/-- The step from the end of memory fails to fetch (R91). -/
theorem stepWith_resetAfter_end : stepWith Config.spec (resetAfter 65536) =
    .next ((resetAfter 65536).raise (.fetchAddressOutOfRange 65536)) := by
  have hpc : signed (resetAfter 65536).pc = 65536 := signed_resetAfter_pc le_rfl
  have hstep := stepWith_fetch_outOfRange (s := resetAfter 65536) rfl (.inr (by omega))
  rwa [hpc] at hstep

/-- A run over zero cells that leaves memory ends in the failed fetch, however long it is. -/
theorem runWith_resetAfter_past_end {n k : Nat} (hk : k ≤ 65536) (h : 65536 < k + n) :
    runWith Config.spec n (resetAfter k) = (resetAfter 65536).raise (.fetchAddressOutOfRange 65536) := by
  induction n generalizing k with
  | zero => omega
  | succ n ih =>
    obtain rfl | hlt := hk.eq_or_lt
    · rw [runWith_succ stepWith_resetAfter_end]
      exact runWith_of_not_running n nofun
    · rw [runWith_succ (stepWith_resetAfter hlt)]
      exact ih hlt (by omega)

/-- Settles O44: reset's answers by R107's conditions, and the empty image's run by induction on its steps. -/
theorem resetRefusesTheImagesItCannotHold : Obligations.ResetRefusesTheImagesItCannotHold := by
  unfold Obligations.ResetRefusesTheImagesItCannotHold
  refine ⟨fun image => (resetWith_refused_iff image).trans (not_fitsMemory_iff image), fun image r hfault => ?never,
    resetWith_of_fits ⟨Nat.zero_le _, nofun⟩, fun n hn => ?inside, fun n hn => ?past⟩
  case never =>
    obtain ⟨-, hnext⟩ | ⟨-, _, hrefused⟩ := resetWith_cases image
    · cases hfault.symm.trans hnext
    · cases hfault.symm.trans hrefused
  case inside =>
    have hrun := runWith_resetAfter (n := n) (k := 0) (by omega)
    rwa [Nat.zero_add] at hrun
  case past => exact runWith_resetAfter_past_end (Nat.zero_le _) (by omega)

end Sys2Proof.Machine
end

section
/-! The step as fetch, decode and execute (70_reset_and_hazards.md R110, R111), and the word placed for the next
fetch. -/

namespace Sys2Proof.Machine

/-- The step of a running machine whose fetched word decodes executes the instruction, which always answers, and counts
it (R110). -/
theorem step_executes {s : State} {w : Word} {i : Instr} (hr : s.run = .running) (hf : fetch s (signed s.pc) = .ok w)
    (hd : decode Config.spec w = .ok i) : ∃ t, exec i s = .next t ∧ step s = .next t.complete := by
  obtain ⟨t, ht⟩ := exec_answers_next i s
  exact ⟨t, ht, stepWith_exec hr (limitReached_spec s) (fetchDecode_of_fetch hf hd) ht⟩

/-- An instruction that raised an error is not counted (R25, R92). -/
theorem complete_icount_of_not_safe {i : Instr} {s t : State} (h : exec i s = .next t) (hsafe : ¬ Safe t) :
    t.complete.icount = s.icount := by
  obtain ⟨e, addr, ht⟩ : ∃ e addr, t.run = .faulted e addr := by simpa [Safe] using hsafe
  rw [State.complete_of_faulted t ht, exec_icount h]

/-- Settles O27: completing the executed instruction touches the count alone. -/
theorem stepRunsTheDecodedInstruction : Obligations.StepRunsTheDecodedInstruction := by
  unfold Obligations.StepRunsTheDecodedInstruction
  intro s i hr hlo hhi hd
  have hpc : ¬ OutOfRange (signed s.pc) := by unfold OutOfRange; omega
  obtain ⟨t, ht, hstep⟩ := step_executes hr (fetch_inRange hpc) hd
  exact ⟨t, t.complete, ht, hstep, State.complete_x t, State.complete_pc t, State.complete_mem t,
    State.complete_run t,
    complete_icount_of_exec ht, complete_icount_of_not_safe ht⟩

/-- A word is placed at a pc that a fetch accepts. -/
theorem placeFetchWord_pc_inRange (s : State) (w : Word) : ¬ OutOfRange (signed (s.placeFetchWord w).pc) := by
  rw [State.placeFetchWord]
  dsimp only
  split
  · decide
  · assumption

/-- The next fetch reads the placed word. -/
theorem fetch_placeFetchWord {s : State} (hm : s.mem.wf = true) (w : Word) :
    fetch (s.placeFetchWord w) (signed (s.placeFetchWord w).pc) = .ok w := by
  rw [fetch_inRange (placeFetchWord_pc_inRange s w)]
  exact congrArg Except.ok (Memory.read_write_same hm)

/-- A table word decodes in the spec's configuration. -/
theorem decode_of_decodeTableWord {nbits w : Nat} {i : Instr} (h : decodeTableWord nbits w = some i) :
    decode Config.spec (BitVec.ofNat 32 (w % 2 ^ nbits)) = .ok i := by
  obtain ⟨j, hj⟩ := decode_spec_total (BitVec.ofNat 32 (w % 2 ^ nbits))
  rw [decodeTableWord, hj] at h
  rw [hj, Option.some.inj h]

/-- Settles O28: the aid leaves a running machine whose next fetch reads the placed word. -/
theorem placedWordIsTheNextInstruction : Obligations.PlacedWordIsTheNextInstruction := by
  unfold Obligations.PlacedWordIsTheNextInstruction
  exact fun s nbits w i hm hd => step_executes rfl (fetch_placeFetchWord hm _) (decode_of_decodeTableWord hd)

end Sys2Proof.Machine
end
